-- ==== Sys2Proof/Word.lean ====
section
/-! DEFINITION. The two value types of the spec (00_scope.md R8): `u8` and `u16`. -/

namespace Sys2Proof

/-- A `u8` (R8): a register, a status word, a memory cell, an opcode byte. -/
abbrev Byte := BitVec 8

/-- A `u16` (R8): an address or the program counter, always modulo 2^16 (R6). -/
abbrev Word := BitVec 16

end Sys2Proof
end

