-- ==== Sys2Proof/Config.lean ====
section
/-! DEFINITION. The fixed parameters of the CORE (00_scope.md R6) and the default of `RESET_CLEARS_Y` (R7). The default of
`OPCODE_TABLE`, the other parameter of R7, stands in Decode.lean as `opcodeTable`; decoder, step and runs take any table
as an argument. The spec leaves no value free, so there is no opaque constant here. -/

namespace Sys2Proof.Config

/-- `LOAD_BASE` (R6): where `load` puts a program image. -/
def loadBase : Word := 0x8000

/-- `RESET_VECTOR` (R6): the address of the low byte of the reset vector; the high byte follows it. -/
def resetVector : Word := 0xFFFC

/-- `MAX_IMAGE` (R6): the largest program image in bytes. -/
def maxImage : Nat := 0x8000

/-- The number of memory cells (R6): addresses 0x0000 to 0xFFFF. -/
def memorySize : Nat := 65536

/-- What an address that the memory list does not name reads as: `construct` zeroes every cell (R36, R190). -/
def unlistedByte : Byte := 0x00

/-- The default of the parameter `RESET_CLEARS_Y` (R7, R194): the reference behaviour keeps Y. The reset operation
takes the parameter as an argument. -/
def resetClearsY : Bool := false

end Sys2Proof.Config
end

