-- ==== Sys2Proof/Syntax.lean ====
section
/-! DEFINITION. Names the spec gives: addressing modes, mnemonics, the rows of an opcode table, the four 8-bit
registers, and the ONE inductive of instructions, one constructor per row of spec/opcode_table.json. -/

namespace Sys2Proof

/-- The addressing modes of the resolver table (41_addressing_modes.md R105 to R113). `implied` is the spec's
mode None. `zeroPageY` is used by no row of the default table (R107). -/
inductive Mode where
  | immediate
  | zeroPage
  | zeroPageX
  | zeroPageY
  | absolute
  | absoluteX
  | absoluteY
  | indirectX
  | indirectY
  | implied
deriving DecidableEq, Repr

/-- The five handlers, by mnemonic (30_encoding.md R70). -/
inductive Mnemonic where
  | lda
  | sta
  | tax
  | inx
  | brk
deriving DecidableEq, Repr

/-- One row of the opcode table (30_encoding.md R69). `length` counts the opcode byte; `baseCycles` is
informational and nothing reads it (R210). -/
structure Descriptor where
  opcode     : Byte
  mnemonic   : Mnemonic
  mode       : Mode
  length     : Nat
  baseCycles : Nat
deriving DecidableEq, Repr

/-- An opcode table (00_scope.md R7): a finite list of rows, keyed by opcode byte. -/
abbrev OpcodeTable := List Descriptor

/-- The 8-bit registers `x[r]` ranges over (00_scope.md R9). -/
inductive Reg where
  | a
  | x
  | y
  | p
deriving DecidableEq, Repr

/-- The instructions: one constructor per row of the default opcode table (30_encoding.md R70), each with its operand as
assembled by R67: a byte, or a 16-bit word. -/
inductive Instr where
  | ldaImmediate (v : Byte)
  | ldaZeroPage (zz : Byte)
  | ldaZeroPageX (zz : Byte)
  | ldaAbsolute (w : Word)
  | ldaAbsoluteX (w : Word)
  | ldaAbsoluteY (w : Word)
  | ldaIndirectX (zz : Byte)
  | ldaIndirectY (zz : Byte)
  | staZeroPage (zz : Byte)
  | staZeroPageX (zz : Byte)
  | staAbsolute (w : Word)
  | staAbsoluteX (w : Word)
  | staAbsoluteY (w : Word)
  | staIndirectX (zz : Byte)
  | staIndirectY (zz : Byte)
  | tax
  | inx
  | brk
deriving DecidableEq, Repr

end Sys2Proof
end

