-- ==== Sys2Proof/Decode.lean ====
section
/-! DEFINITION. The instruction_decoder (30_encoding.md): byte-order helpers, the default opcode table, the decoder over
any opcode table, total on any bytes, and the encoder. -/

namespace Sys2Proof

/-! ## Byte order and widening (R8, R52) -/

/-- `hi ++ lo` of R8: the word `hi * 256 + lo`. -/
def joinBytes (hi lo : Byte) : Word := hi ++ lo

/-- `w[7:0]` (R8). -/
def lowByte (w : Word) : Byte := w.extractLsb' 0 8

/-- `w[15:8]` (R8). -/
def highByte (w : Word) : Byte := w.extractLsb' 8 8

/-- `zext_16` (R8): a byte widened with zero high bits. -/
def zext16 (b : Byte) : Word := b.setWidth 16

/-! ## The opcode table -/

/-- The length of each mode: the bytes the resolver consumes plus one (R68). -/
def Mode.length : Mode → Nat
  | .implied => 1
  | .immediate | .zeroPage | .zeroPageX | .zeroPageY | .indirectX | .indirectY => 2
  | .absolute | .absoluteX | .absoluteY => 3

/-- The default of the parameter `OPCODE_TABLE` (R7, R70), the 18 rows in the table's order. The bytes 0xA9, 0xA5, 0xAA, 0xE8 and 0x00 are attested
by the source; the other thirteen are the spec's decision D1 (notes/assumptions/7.md). -/
def opcodeTable : OpcodeTable :=
  [ ⟨0xA9, .lda, .immediate, 2, 2⟩,
    ⟨0xA5, .lda, .zeroPage, 2, 3⟩,
    ⟨0xB5, .lda, .zeroPageX, 2, 4⟩,
    ⟨0xAD, .lda, .absolute, 3, 4⟩,
    ⟨0xBD, .lda, .absoluteX, 3, 4⟩,
    ⟨0xB9, .lda, .absoluteY, 3, 4⟩,
    ⟨0xA1, .lda, .indirectX, 2, 6⟩,
    ⟨0xB1, .lda, .indirectY, 2, 5⟩,
    ⟨0x85, .sta, .zeroPage, 2, 3⟩,
    ⟨0x95, .sta, .zeroPageX, 2, 4⟩,
    ⟨0x8D, .sta, .absolute, 3, 4⟩,
    ⟨0x9D, .sta, .absoluteX, 3, 5⟩,
    ⟨0x99, .sta, .absoluteY, 3, 5⟩,
    ⟨0x81, .sta, .indirectX, 2, 6⟩,
    ⟨0x91, .sta, .indirectY, 2, 6⟩,
    ⟨0xAA, .tax, .implied, 1, 2⟩,
    ⟨0xE8, .inx, .implied, 1, 2⟩,
    ⟨0x00, .brk, .implied, 1, 7⟩ ]

/-- The five attested rows, the smaller table a model may pass instead (D1, 90_conflicts.md C8). -/
def attestedTable : OpcodeTable :=
  [ ⟨0xA9, .lda, .immediate, 2, 2⟩,
    ⟨0xA5, .lda, .zeroPage, 2, 3⟩,
    ⟨0xAA, .tax, .implied, 1, 2⟩,
    ⟨0xE8, .inx, .implied, 1, 2⟩,
    ⟨0x00, .brk, .implied, 1, 7⟩ ]

/-- Look up an opcode byte: the whole byte is matched (R72). -/
def OpcodeTable.descriptor (t : OpcodeTable) (op : Byte) : Option Descriptor :=
  t.find? (fun d => d.opcode == op)

/-! ## The encoder -/

/-- The opcode byte of each instruction (R70). -/
def Instr.opcode : Instr → Byte
  | .ldaImmediate _ => 0xA9
  | .ldaZeroPage _ => 0xA5
  | .ldaZeroPageX _ => 0xB5
  | .ldaAbsolute _ => 0xAD
  | .ldaAbsoluteX _ => 0xBD
  | .ldaAbsoluteY _ => 0xB9
  | .ldaIndirectX _ => 0xA1
  | .ldaIndirectY _ => 0xB1
  | .staZeroPage _ => 0x85
  | .staZeroPageX _ => 0x95
  | .staAbsolute _ => 0x8D
  | .staAbsoluteX _ => 0x9D
  | .staAbsoluteY _ => 0x99
  | .staIndirectX _ => 0x81
  | .staIndirectY _ => 0x91
  | .tax => 0xAA
  | .inx => 0xE8
  | .brk => 0x00

/-- The handler of each instruction (R70). -/
def Instr.mnemonic : Instr → Mnemonic
  | .ldaImmediate _ | .ldaZeroPage _ | .ldaZeroPageX _ | .ldaAbsolute _ | .ldaAbsoluteX _ | .ldaAbsoluteY _
  | .ldaIndirectX _ | .ldaIndirectY _ => .lda
  | .staZeroPage _ | .staZeroPageX _ | .staAbsolute _ | .staAbsoluteX _ | .staAbsoluteY _
  | .staIndirectX _ | .staIndirectY _ => .sta
  | .tax => .tax
  | .inx => .inx
  | .brk => .brk

/-- The addressing mode of each instruction (R70). -/
def Instr.mode : Instr → Mode
  | .ldaImmediate _ => .immediate
  | .ldaZeroPage _ | .staZeroPage _ => .zeroPage
  | .ldaZeroPageX _ | .staZeroPageX _ => .zeroPageX
  | .ldaAbsolute _ | .staAbsolute _ => .absolute
  | .ldaAbsoluteX _ | .staAbsoluteX _ => .absoluteX
  | .ldaAbsoluteY _ | .staAbsoluteY _ => .absoluteY
  | .ldaIndirectX _ | .staIndirectX _ => .indirectX
  | .ldaIndirectY _ | .staIndirectY _ => .indirectY
  | .tax | .inx | .brk => .implied

/-- The operand bytes in memory order: none, one byte, or a word low byte first (R66, R67). -/
def Instr.operandBytes : Instr → List Byte
  | .ldaImmediate b | .ldaZeroPage b | .ldaZeroPageX b | .ldaIndirectX b | .ldaIndirectY b
  | .staZeroPage b | .staZeroPageX b | .staIndirectX b | .staIndirectY b => [b]
  | .ldaAbsolute w | .ldaAbsoluteX w | .ldaAbsoluteY w
  | .staAbsolute w | .staAbsoluteX w | .staAbsoluteY w => [lowByte w, highByte w]
  | .tax | .inx | .brk => []

/-- The bytes of an instruction: its opcode, then its operand bytes (R65). -/
def encode (i : Instr) : List Byte := i.opcode :: i.operandBytes

/-! ## The decoder -/

/-- Why bytes are no instruction. `noDescriptor op`: the opcode byte has no row (R74). `noConstructor d`: the byte has the
row `d`, and `Instr` names the rows of the default table only, not this handler in this mode with this length; the step
over a table runs such a row from its descriptor (Machine/TableStep.lean). `truncated`: the list ends before the
instruction does; memory never ends (R51), so the fetch of a step never meets it. -/
inductive DecodeReject where
  | noDescriptor (op : Byte)
  | noConstructor (d : Descriptor)
  | truncated
deriving DecidableEq, Repr

/-- What decoding answers: an instruction and the bytes after it, or a named rejection. -/
abbrev DecodeResult := Except DecodeReject (Instr × List Byte)

/-- Format I (R66): no operand. -/
def decodeImplied (i : Instr) (rest : List Byte) : DecodeResult := .ok (i, rest)

/-- Format B (R66): one operand byte. -/
def decodeByte (f : Byte → Instr) : List Byte → DecodeResult
  | b :: rest => .ok (f b, rest)
  | [] => .error .truncated

/-- Format W (R66): a word operand, low byte first. -/
def decodeWord (f : Word → Instr) : List Byte → DecodeResult
  | lo :: hi :: rest => .ok (f (joinBytes hi lo), rest)
  | _ => .error .truncated

/-- The instruction of a handler in a mode, assembled from the bytes after the opcode (R67); the row `d` is named where
`Instr` has no such pair. -/
def assemble (d : Descriptor) (rest : List Byte) : DecodeResult :=
  match d.mnemonic, d.mode with
  | .lda, .immediate => decodeByte .ldaImmediate rest
  | .lda, .zeroPage => decodeByte .ldaZeroPage rest
  | .lda, .zeroPageX => decodeByte .ldaZeroPageX rest
  | .lda, .absolute => decodeWord .ldaAbsolute rest
  | .lda, .absoluteX => decodeWord .ldaAbsoluteX rest
  | .lda, .absoluteY => decodeWord .ldaAbsoluteY rest
  | .lda, .indirectX => decodeByte .ldaIndirectX rest
  | .lda, .indirectY => decodeByte .ldaIndirectY rest
  | .sta, .zeroPage => decodeByte .staZeroPage rest
  | .sta, .zeroPageX => decodeByte .staZeroPageX rest
  | .sta, .absolute => decodeWord .staAbsolute rest
  | .sta, .absoluteX => decodeWord .staAbsoluteX rest
  | .sta, .absoluteY => decodeWord .staAbsoluteY rest
  | .sta, .indirectX => decodeByte .staIndirectX rest
  | .sta, .indirectY => decodeByte .staIndirectY rest
  | .tax, .implied => decodeImplied .tax rest
  | .inx, .implied => decodeImplied .inx rest
  | .brk, .implied => decodeImplied .brk rest
  | _, _ => .error (.noConstructor d)

/-- Decoding by a row: an instruction of `Instr` has its mode's length (R68); a row with another length is none. -/
def decodeRow (d : Descriptor) (rest : List Byte) : DecodeResult :=
  if d.length = d.mode.length then assemble d rest else .error (.noConstructor d)

/-- The decoder over an opcode table, the parameter `OPCODE_TABLE` (00_scope.md R7, 10_state.md R34), total on any bytes:
it looks up the whole opcode byte (R72), tells the length from that byte alone (R73), and rejects every byte without a
row (R74). -/
def decodeWith (t : OpcodeTable) : List Byte → DecodeResult
  | [] => .error .truncated
  | op :: rest =>
    match t.descriptor op with
    | none => .error (.noDescriptor op)
    | some d => decodeRow d rest

/-- The decoder over the default table. -/
def decode (bytes : List Byte) : DecodeResult := decodeWith opcodeTable bytes

/-! ## Words numbered as the opcode table numbers them -/

/-- The bytes of an instruction given as a number whose byte k is its k-th byte in memory, every bit from `nbits` on
taken as 0, as long as the longest instruction (3 bytes, R66). -/
def tableBytes (nbits w : Nat) : List Byte :=
  let v := w % 2 ^ nbits
  [BitVec.ofNat 8 v, BitVec.ofNat 8 (v / 256), BitVec.ofNat 8 (v / 65536)]

/-- The instruction the decoder reads from a word numbered as the opcode table numbers it. -/
def decodeTableWord (nbits w : Nat) : Option Instr :=
  match decode (tableBytes nbits w) with
  | .ok (i, _) => some i
  | .error _ => none

end Sys2Proof
end

