-- ==== Sys2Proof/Machine/Flags.lean ====
section
/-! DEFINITION. alu_flags (43_register_alu.md): the status register's two live bits and the Flag Update Logic. -/

namespace Sys2Proof.Machine

/-- The bit of Z in P (R26). -/
def zeroBit : Nat := 1

/-- The bit of N in P (R26). -/
def negativeBit : Nat := 7

/-- `P.Z` (R9). -/
def flagZ (p : Byte) : Bool := p.getLsbD zeroBit

/-- `P.N` (R9). -/
def flagN (p : Byte) : Bool := p.getLsbD negativeBit

/-- Write one bit of a byte and keep the others (R9: "writes that one bit only"). -/
def putBit (p : Byte) (i : Nat) (b : Bool) : Byte :=
  if b then p ||| (1#8 <<< i) else p &&& ~~~(1#8 <<< i)

/-- `UpdateZN(v)` (R150): Z is set iff v is 0, N is bit 7 of v, every other bit is kept. -/
def updateZN (v p : Byte) : Byte :=
  putBit (putBit p zeroBit (v == 0x00)) negativeBit (v.getLsbD 7)

/-- The two requests of alu_flags (R156). -/
inductive AluRequest where
  | pass
  | increment
deriving DecidableEq, Repr

/-- The 8-bit result of alu_flags (R155, R156): the operand, or the operand plus 1 modulo 2^8. -/
def aluResult : AluRequest → Byte → Byte
  | .pass, v => v
  | .increment, v => v + 1

/-- P after alu_flags (R156): Z and N from the result, the other bits passed through. -/
def aluStatus (req : AluRequest) (v p : Byte) : Byte := updateZN (aluResult req v) p

end Sys2Proof.Machine
end

