-- ==== Sys2Proof/Machine/State.lean ====
section
/-! DEFINITION. The state of the CORE (10_state.md), plain data, and the state right after reset. -/

namespace Sys2Proof.Machine

/-- Memory `M` (R32) as the cells that differ from `Config.unlistedByte`, addresses strictly rising
(`Memory.wf` in Ops.lean). -/
abbrev Memory := List Host.Cell

/-- How a run ends (60_exceptions.md R170). -/
inductive RunOutcome where
  /-- `Break`, the normal end (R165): raised by BRK. -/
  | normalBreak
  /-- `DecodeError(op, at)` (R171): raised by DECODE when the byte `op` fetched at `addr` has no descriptor. -/
  | decodeError (op : Byte) (addr : Word)
  /-- `AddressingError(mode)` (R173): raised by the resolver called with mode None. -/
  | addressingError (mode : Mode)
deriving DecidableEq, Repr

/-- The run status `S` (R33). -/
inductive RunStatus where
  | idle
  | running
  | halted (o : RunOutcome)
deriving DecidableEq, Repr

/-- Reasons a step could stop without a next state. There is NONE: no bus operation faults (R51), and each of the
three run outcomes of R170 has a described state after it, so a step that raises one answers that next state with
`S` halted (notes/assumptions/5.md). -/
inductive Fault : Type
deriving DecidableEq, Repr

/-- Reasons to give no meaning. -/
inductive Refusal where
  /-- An instruction that has no meaning yet, by its mnemonic. Raised only by an arm of `exec`; no arm raises it,
  since every instruction has its meaning. Safe. -/
  | notModelled (mnemonic : String)
deriving DecidableEq, Repr

/-- The CORE's state: the register file and program counter (R20), memory (R32) and the run status (R33). There is no
stack pointer (R25), no other register file (R38) and no other hidden state (R35). -/
structure State where
  /-- A, the accumulator. -/
  a : Byte
  /-- X, index-X. -/
  x : Byte
  /-- Y, index-Y. -/
  y : Byte
  /-- P, the status flags (R26): bit 1 is Z, bit 7 is N, the other six are stored and preserved. -/
  p : Byte
  /-- PC (R30). -/
  pc : Word
  /-- M (R32). -/
  mem : Memory
  /-- S (R33). -/
  runStatus : RunStatus
deriving DecidableEq, Repr

/-- What one instruction or step answers. -/
abbrev Result := Host.Outcome State Fault Refusal

/-- The machine right after `construct` and `reset` (R37): A, X, P zeroed by reset, Y zeroed by construct (with
either value of RESET_CLEARS_Y, R194), every cell 0, PC the vector's word `M[0xFFFD] ++ M[0xFFFC]`, which is 0x0000
here, and S Idle (notes/assumptions/2.md). -/
def State.reset : State :=
  { a := 0x00, x := 0x00, y := 0x00, p := 0x00, pc := 0x0000, mem := [], runStatus := .idle }

end Sys2Proof.Machine
end

