-- ==== Sys2Proof/Machine/Ops.lean ====
section
/-! DEFINITION. The named operations over registers, memory, program counter and run status that every meaning is
built from. -/

namespace Sys2Proof.Machine

/-! ## Memory as data -/

/-- The canonical form above a bound: addresses strictly rising from `lo` and inside the address space, no cell equal to
what an unlisted address reads as. -/
def Memory.wfFrom : Nat → Memory → Bool
  | _, [] => true
  | lo, (k, v) :: m => decide (lo ≤ k) && decide (k < Config.memorySize) && (v != Config.unlistedByte) && Memory.wfFrom (k + 1) m

/-- The canonical form of memory. -/
def Memory.wf (m : Memory) : Bool := Memory.wfFrom 0 m

/-- The byte at an address; an unlisted address holds 0x00 as `construct` left it (R36, R190). -/
def Memory.cell : Memory → Nat → Byte
  | [], _ => Config.unlistedByte
  | (k, v) :: m, a => if k = a then v else Memory.cell m a

/-- Put a byte that is not `Config.unlistedByte` at its place in the rising order. -/
def Memory.insert : Memory → Nat → Byte → Memory
  | [], a, v => [(a, v)]
  | (k, w) :: m, a, v =>
    if a < k then (a, v) :: (k, w) :: m else if a = k then (a, v) :: m else (k, w) :: Memory.insert m a v

/-- Take an address off the list, so that it reads as `Config.unlistedByte`. -/
def Memory.erase (m : Memory) (a : Nat) : Memory := m.filter (fun c => c.1 != a)

/-- Store a byte and keep the canonical form. -/
def Memory.setCell (m : Memory) (a : Nat) (v : Byte) : Memory :=
  if v = Config.unlistedByte then m.erase a else m.insert a v

/-! ## One field at a time -/

/-- `x[A] <- v`. -/
def State.setA (v : Byte) (s : State) : State := { s with a := v }
/-- `x[X] <- v`. -/
def State.setX (v : Byte) (s : State) : State := { s with x := v }
/-- `x[Y] <- v`. -/
def State.setY (v : Byte) (s : State) : State := { s with y := v }
/-- `x[P] <- v`. -/
def State.setP (v : Byte) (s : State) : State := { s with p := v }
/-- `pc <- v`. -/
def State.setPc (v : Word) (s : State) : State := { s with pc := v }
/-- Replace the memory array. -/
def State.setMem (m : Memory) (s : State) : State := { s with mem := m }
/-- `S <- v`. -/
def State.setStatus (v : RunStatus) (s : State) : State := { s with runStatus := v }

/-- `x[r]` (R9). -/
def readReg (r : Reg) (s : State) : Byte :=
  match r with
  | .a => s.a
  | .x => s.x
  | .y => s.y
  | .p => s.p

/-- `x[r] <- v` (R9). -/
def writeReg (r : Reg) (v : Byte) (s : State) : State :=
  match r with
  | .a => s.setA v
  | .x => s.setX v
  | .y => s.setY v
  | .p => s.setP v

/-! ## memory_bus_interface (20_memory.md) -/

/-- `read(addr)`, `MemRead(addr, 1)` (R45). -/
def readByte (addr : Word) (s : State) : Byte := s.mem.cell addr.toNat

/-- `write(addr, byte)`, `MemWrite(addr, 1, byte)` (R46). -/
def writeByte (addr : Word) (v : Byte) (s : State) : State := s.setMem (s.mem.setCell addr.toNat v)

/-- `read16(addr)`, `MemRead(addr, 2)` (R47): little-endian, the high byte's address modulo 2^16 (R49, D2). -/
def readWord (addr : Word) (s : State) : Word := joinBytes (readByte (addr + 1) s) (readByte addr s)

/-- `write16(addr, word)`, `MemWrite(addr, 2, word)` (R48), low byte first. -/
def writeWord (addr : Word) (w : Word) (s : State) : State :=
  writeByte (addr + 1) (highByte w) (writeByte addr (lowByte w) s)

/-- `ZpRead16(z)` (R50): a word of the zero page, the high byte's address modulo 2^8. -/
def readZeroPageWord (z : Byte) (s : State) : Word :=
  joinBytes (readByte (zext16 (z + 1)) s) (readByte (zext16 z) s)

/-- Write consecutive bytes from `addr` up, modulo 2^16. -/
def writeBytes (addr : Word) : List Byte → State → State
  | [], s => s
  | b :: bs, s => writeBytes (addr + 1) bs (writeByte addr b s)

/-! ## program_counter_counter (40_execution_engine.md R86, R91, R100) -/

/-- The fetch's increment by 1 (R86). -/
def pcIncrement (s : State) : State := s.setPc (s.pc + 1)

/-- The operand advance `pc <- (pc + length - 1) mod 2^16` (R91). -/
def pcAdvance (length : Nat) (s : State) : State := s.setPc (s.pc + BitVec.ofNat 16 length - 1)

/-! ## fetch_unit (R86) -/

/-- The opcode byte `op` at the program counter (R86). -/
def fetchOpcode (s : State) : Byte := readByte s.pc s

/-- The bytes the decoder is given: the opcode byte and the two after it, as many as the longest instruction has (R66),
addresses modulo 2^16 (R65). Reading a byte that the instruction does not have changes nothing (R55). -/
def fetchBytes (s : State) : List Byte :=
  [readByte s.pc s, readByte (s.pc + 1) s, readByte (s.pc + 2) s]

/-! ## Handlers (40_execution_engine.md R89) -/

/-- The LOAD handler after its read (R124): A takes the value, then UpdateZN of it. -/
def loadA (v : Byte) (s : State) : State :=
  (s.setA (aluResult .pass v)).setP (aluStatus .pass v s.p)

/-- The STORE handler at an effective address (R134). -/
def storeA (ea : Word) (s : State) : State := writeByte ea s.a s

/-- The TRANSFER handler (R152): X takes A, then UpdateZN of X. -/
def transferAX (s : State) : State :=
  (s.setX (aluResult .pass s.a)).setP (aluStatus .pass s.a s.p)

/-- The INCREMENT handler (R153): X takes X plus 1 modulo 2^8, then UpdateZN of X. -/
def incrementX (s : State) : State :=
  (s.setX (aluResult .increment s.x)).setP (aluStatus .increment s.x s.p)

/-! ## The end of a run, and starting one again

The CORE has no trap entry (60_exceptions.md R174, R175): an outcome saves nothing, changes no mode, pushes nothing and
reads no vector. The one thing written is the run status. -/

/-- A run ends with an outcome (R33, R170, R175): `S <- Halted(o)` and nothing else. -/
def endRun (o : RunOutcome) (s : State) : State := s.setStatus (.halted o)

/-- `run` starts, or starts again after an outcome (R33, R177, R196): `S <- Running`, the rest as it stands. -/
def startRun (s : State) : State := s.setStatus .running

/-- `raise DecodeError(op, at)` (R11, R171, R172) on the state as it stood before the fetch: the fetch's increment has
happened, nothing else has. -/
def raiseDecodeError (s : State) : State := endRun (.decodeError (fetchOpcode s) s.pc) (pcIncrement s)

/-- The numeric codes of the outcomes (R170, D21): names only. -/
def RunOutcome.code : RunOutcome → Nat
  | .normalBreak => 0
  | .decodeError _ _ => 1
  | .addressingError _ => 2

/-! ## Shapes of a meaning

`exec` runs EXECUTE (R88, R89, R91): its state is the one the fetch left, with PC at the first operand byte. -/

/-- A handler that returns `Continue`: the operand advance follows it, by the length of the mode (R68, R91). -/
def complete (m : Mode) (s : State) : Result := .next (pcAdvance m.length s)

/-- LDA of a mode with a known effective address (R124). -/
def loadFrom (m : Mode) (ea : Word) (s : State) : Result := complete m (loadA (readByte ea s) s)

/-- STA of a mode with a known effective address (R134). -/
def storeTo (m : Mode) (ea : Word) (s : State) : Result := complete m (storeA ea s)

/-- A handler that returns `Break` (R92): the run ends and no operand advance follows. -/
def haltBreak (s : State) : Result := .next (endRun .normalBreak s)

/-! ## What surrounds `exec` in a step -/

/-- The step of a byte without a descriptor (R87, R172). -/
def decodeFailure (s : State) : Result := .next (raiseDecodeError s)

/-- While no run is in progress the CORE performs no action (R101). -/
def betweenRuns (s : State) : Result := .next s

end Sys2Proof.Machine
end

