-- ==== Sys2Proof/Machine/Operands.lean ====
section
/-! DEFINITION. addressing_mode_resolver (41_addressing_modes.md): every addressing mode, from an assembled operand and
from memory at the program counter. -/

namespace Sys2Proof.Machine

/-! ## Effective addresses from an assembled operand -/

/-- ZeroPage (R106): the byte as an address 0 to 255. -/
def zeroPageAddress (zz : Byte) : Word := zext16 zz

/-- ZeroPage,X and ZeroPage,Y (R107): byte plus index, wrapped at 8 bits. -/
def zeroPageIndexed (zz index : Byte) : Word := zext16 (zz + index)

/-- Absolute,X and Absolute,Y (R109): word plus index, wrapped at 16 bits. -/
def absoluteIndexed (w : Word) (index : Byte) : Word := w + zext16 index

/-- Indirect,X (R110): the pointer byte plus X, wrapped at 8 bits, names a zero-page word. -/
def indirectXAddress (zz : Byte) (s : State) : Word := readZeroPageWord (zz + s.x) s

/-- Indirect,Y (R112): the zero-page word at the pointer byte, plus Y, wrapped at 16 bits. The pointer's high byte wraps
within the zero page by the spec's decision D3 (notes/assumptions/9.md). -/
def indirectYAddress (zz : Byte) (s : State) : Word := readZeroPageWord zz s + zext16 s.y

/-! ## The resolver -/

/-- `Resolve(mode)` (R104 to R113), called with PC at the first operand byte: a pure function to an effective address,
or AddressingError for mode None (R113). -/
def resolve (m : Mode) (s : State) : Except RunOutcome Word :=
  match m with
  | .immediate => .ok s.pc
  | .zeroPage => .ok (zeroPageAddress (readByte s.pc s))
  | .zeroPageX => .ok (zeroPageIndexed (readByte s.pc s) s.x)
  | .zeroPageY => .ok (zeroPageIndexed (readByte s.pc s) s.y)
  | .absolute => .ok (readWord s.pc s)
  | .absoluteX => .ok (absoluteIndexed (readWord s.pc s) s.x)
  | .absoluteY => .ok (absoluteIndexed (readWord s.pc s) s.y)
  | .indirectX => .ok (indirectXAddress (readByte s.pc s) s)
  | .indirectY => .ok (indirectYAddress (readByte s.pc s) s)
  | .implied => .error (.addressingError .implied)

/-- The addresses the resolver reads, in order (R60, R115): operand bytes, then pointer bytes, low before high. -/
def resolverReads (m : Mode) (s : State) : List Word :=
  match m with
  | .immediate | .implied => []
  | .zeroPage | .zeroPageX | .zeroPageY => [s.pc]
  | .absolute | .absoluteX | .absoluteY => [s.pc, s.pc + 1]
  | .indirectX =>
    let z := readByte s.pc s + s.x
    [s.pc, zext16 z, zext16 (z + 1)]
  | .indirectY =>
    let z := readByte s.pc s
    [s.pc, zext16 z, zext16 (z + 1)]

end Sys2Proof.Machine
end

