-- ==== Sys2Proof/Machine/LoadStore.lean ====
section
/-! DEFINITION. The meanings of LDA and STA (42_load_store.md), one definition per opcode. Each takes the state the fetch
left, with PC at the first operand byte. -/

namespace Sys2Proof.Machine

/-- LDA Immediate (R125): the operand byte is the value (R105). -/
def execLdaImmediate (v : Byte) (s : State) : Result := complete .immediate (loadA v s)

/-- LDA ZeroPage (R126). -/
def execLdaZeroPage (zz : Byte) (s : State) : Result := loadFrom .zeroPage (zeroPageAddress zz) s

/-- LDA ZeroPage,X (R127). -/
def execLdaZeroPageX (zz : Byte) (s : State) : Result := loadFrom .zeroPageX (zeroPageIndexed zz s.x) s

/-- LDA Absolute (R128). -/
def execLdaAbsolute (w : Word) (s : State) : Result := loadFrom .absolute w s

/-- LDA Absolute,X (R129). -/
def execLdaAbsoluteX (w : Word) (s : State) : Result := loadFrom .absoluteX (absoluteIndexed w s.x) s

/-- LDA Absolute,Y (R130). -/
def execLdaAbsoluteY (w : Word) (s : State) : Result := loadFrom .absoluteY (absoluteIndexed w s.y) s

/-- LDA Indirect,X (R131). -/
def execLdaIndirectX (zz : Byte) (s : State) : Result := loadFrom .indirectX (indirectXAddress zz s) s

/-- LDA Indirect,Y (R132). -/
def execLdaIndirectY (zz : Byte) (s : State) : Result := loadFrom .indirectY (indirectYAddress zz s) s

/-- STA ZeroPage (R135). -/
def execStaZeroPage (zz : Byte) (s : State) : Result := storeTo .zeroPage (zeroPageAddress zz) s

/-- STA ZeroPage,X (R136). -/
def execStaZeroPageX (zz : Byte) (s : State) : Result := storeTo .zeroPageX (zeroPageIndexed zz s.x) s

/-- STA Absolute (R137). -/
def execStaAbsolute (w : Word) (s : State) : Result := storeTo .absolute w s

/-- STA Absolute,X (R138). -/
def execStaAbsoluteX (w : Word) (s : State) : Result := storeTo .absoluteX (absoluteIndexed w s.x) s

/-- STA Absolute,Y (R139). -/
def execStaAbsoluteY (w : Word) (s : State) : Result := storeTo .absoluteY (absoluteIndexed w s.y) s

/-- STA Indirect,X (R140). -/
def execStaIndirectX (zz : Byte) (s : State) : Result := storeTo .indirectX (indirectXAddress zz s) s

/-- STA Indirect,Y (R141). -/
def execStaIndirectY (zz : Byte) (s : State) : Result := storeTo .indirectY (indirectYAddress zz s) s

end Sys2Proof.Machine
end

