-- ==== Sys2Proof/Machine/Register.lean ====
section
/-! DEFINITION. The meanings of the implied register instructions TAX and INX (43_register_alu.md). -/

namespace Sys2Proof.Machine

/-- TAX (R152). -/
def execTax (s : State) : Result := complete .implied (transferAX s)

/-- INX (R153, R154). -/
def execInx (s : State) : Result := complete .implied (incrementX s)

end Sys2Proof.Machine
end

