-- ==== Sys2Proof/Machine/System.lean ====
section
/-! DEFINITION. The meaning of BRK (44_system.md). -/

namespace Sys2Proof.Machine

/-- BRK (R165, R166): the run ends with `Break`; no register, flag or memory cell changes, and PC keeps the value the
fetch gave it (R92, D7). -/
def execBrk (s : State) : Result := haltBreak s

end Sys2Proof.Machine
end

