-- ==== Sys2Proof/Machine/Dispatch.lean ====
section
/-! DEFINITION. One arm per instruction: EXECUTE (40_execution_engine.md R88, R89, R91), on the state the fetch left. -/

namespace Sys2Proof.Machine

def exec (i : Instr) (s : State) : Host.Outcome State Fault Refusal :=
  match i with
  | .ldaImmediate v => Sys2Proof.Machine.execLdaImmediate v s
  | .ldaZeroPage zz => Sys2Proof.Machine.execLdaZeroPage zz s
  | .ldaZeroPageX zz => Sys2Proof.Machine.execLdaZeroPageX zz s
  | .ldaAbsolute w => Sys2Proof.Machine.execLdaAbsolute w s
  | .ldaAbsoluteX w => Sys2Proof.Machine.execLdaAbsoluteX w s
  | .ldaAbsoluteY w => Sys2Proof.Machine.execLdaAbsoluteY w s
  | .ldaIndirectX zz => Sys2Proof.Machine.execLdaIndirectX zz s
  | .ldaIndirectY zz => Sys2Proof.Machine.execLdaIndirectY zz s
  | .staZeroPage zz => Sys2Proof.Machine.execStaZeroPage zz s
  | .staZeroPageX zz => Sys2Proof.Machine.execStaZeroPageX zz s
  | .staAbsolute w => Sys2Proof.Machine.execStaAbsolute w s
  | .staAbsoluteX w => Sys2Proof.Machine.execStaAbsoluteX w s
  | .staAbsoluteY w => Sys2Proof.Machine.execStaAbsoluteY w s
  | .staIndirectX zz => Sys2Proof.Machine.execStaIndirectX zz s
  | .staIndirectY zz => Sys2Proof.Machine.execStaIndirectY zz s
  | .tax => Sys2Proof.Machine.execTax s
  | .inx => Sys2Proof.Machine.execInx s
  | .brk => Sys2Proof.Machine.execBrk s

end Sys2Proof.Machine
end

