-- ==== Sys2Proof/Machine/Engine.lean ====
section
/-! DEFINITION. The execution engine as the spec's pseudocode writes it (40_execution_engine.md R90), over ANY opcode
table: the parameter `OPCODE_TABLE` of 00_scope.md R7. `stepWith` decodes whole instructions instead; that the two agree
on every table is a statement of its own. -/

namespace Sys2Proof.Machine

/-- The resolver's call in EXECUTE, part 1 (R88): only when the mode is not None. -/
def resolveIfNeeded (m : Mode) (s : State) : Except RunOutcome (Option Word) :=
  match m with
  | .implied => .ok none
  | _ => (resolve m s).map some

/-- The effective address a LOAD or STORE handler works with; with none given, the handler's own request for one is
the resolver called with mode None (R113, R173). -/
def requireAddress (ea : Option Word) (s : State) : Except RunOutcome Word :=
  match ea with
  | some addr => .ok addr
  | none => resolve .implied s

/-- EXECUTE, part 2 (R89): the handler of a mnemonic. `ok` is `Continue`; `error` is the outcome that ends the run. -/
def handler (mn : Mnemonic) (ea : Option Word) (s : State) : Except RunOutcome State :=
  match mn with
  | .lda => (requireAddress ea s).map (fun addr => loadA (readByte addr s) s)
  | .sta => (requireAddress ea s).map (fun addr => storeA addr s)
  | .tax => .ok (transferAX s)
  | .inx => .ok (incrementX s)
  | .brk => .error .normalBreak

/-- EXECUTE (R88, R89, R91) of a descriptor, on the state the fetch left; no advance when the run ends (R92). -/
def engineExecute (d : Descriptor) (s : State) : State :=
  match resolveIfNeeded d.mode s with
  | .error o => endRun o s
  | .ok ea =>
    match handler d.mnemonic ea s with
    | .error o => endRun o s
    | .ok t => pcAdvance d.length t

/-- `Step()` (R90) over an opcode table, during a run. -/
def engineStep (table : OpcodeTable) (s : State) : State :=
  match table.descriptor (fetchOpcode s) with
  | none => raiseDecodeError s
  | some d => engineExecute d (pcIncrement s)

end Sys2Proof.Machine
end

