-- ==== Sys2Proof/Machine/TableStep.lean ====
section
/-! DEFINITION. One step of the CORE (40_execution_engine.md R85 to R92) over any opcode table: the configuration
parameter `OPCODE_TABLE` (00_scope.md R7, 10_state.md R34), an argument and no state. -/

namespace Sys2Proof.Machine

/-- A fetched byte that decodes to no instruction of `Instr`: a row that `Instr` has no constructor for is executed from
its descriptor (R88 to R91), a byte without a row is a decode error (R87). -/
def rejected (e : DecodeReject) (s : State) : Result :=
  match e with
  | .noConstructor d => .next (engineExecute d (pcIncrement s))
  | .noDescriptor _ | .truncated => decodeFailure s

/-- One step over an opcode table. During a run: fetch the opcode byte and advance PC by one (R86), decode by the table
(R87), execute (R88 to R91). While no run is in progress nothing happens (R101, notes/assumptions/4.md). -/
def stepWith (table : OpcodeTable) (s : State) : Result :=
  match s.runStatus with
  | .running =>
    match decodeWith table (fetchBytes s) with
    | .ok (i, _) => exec i (pcIncrement s)
    | .error e => rejected e s
  | .idle | .halted _ => betweenRuns s

/-- The machine over an opcode table, in the host's form. `Sys2Proof.core` is the one over the default table. -/
def coreWith (table : OpcodeTable) : Host.Core :=
  { State := State, Fault := Fault, Refusal := Refusal, step := stepWith table, reset := State.reset }

end Sys2Proof.Machine
end

