-- ==== Sys2Proof/Machine/Step.lean ====
section
/-! DEFINITION. One step of the CORE (40_execution_engine.md R85 to R92): FETCH, DECODE, EXECUTE, with the default of
the parameter `OPCODE_TABLE`. -/

namespace Sys2Proof.Machine

/-- One step over the default opcode table. -/
def step (s : State) : Host.Outcome State Fault Refusal := stepWith opcodeTable s

/-- Store an instruction, given as a number whose byte k is its k-th byte, at PC, and start a run, so that the very next
step fetches and runs it (notes/assumptions/6.md): a host write of its bytes (R39) and the start of `run` (R196). -/
def State.withFetchWord (s : State) (nbits w : Nat) : State :=
  startRun (writeBytes s.pc (tableBytes nbits w) s)

end Sys2Proof.Machine
end

