-- ==== Sys2Proof/Machine/Bus.lean ====
section
/-! DEFINITION. The bus accesses of one step, in order (20_memory.md R54, R60): the opcode fetch, the resolver's reads, the
data access. The order is not observable (D15); the list says what each path moves and where the one write stands. -/

namespace Sys2Proof.Machine

/-- One access on the memory bus. -/
inductive BusAccess where
  | read (addr : Word)
  | write (addr : Word) (v : Byte)
deriving DecidableEq, Repr

/-- The data access of a handler (R54): one read for LDA, one write for STA, none for TAX, INX and BRK. -/
def dataAccesses (d : Descriptor) (s : State) : List BusAccess :=
  match d.mnemonic, resolve d.mode s with
  | .lda, .ok ea => [.read ea]
  | .sta, .ok ea => [.write ea s.a]
  | _, _ => []

/-- The accesses of one step over an opcode table (R60), during a run. -/
def busAccesses (table : OpcodeTable) (s : State) : List BusAccess :=
  .read s.pc ::
    match table.descriptor (fetchOpcode s) with
    | none => []
    | some d => (resolverReads d.mode (pcIncrement s)).map .read ++ dataAccesses d (pcIncrement s)

/-- Is this access a write? -/
def BusAccess.isWrite : BusAccess → Bool
  | .read _ => false
  | .write _ _ => true

/-- The effect of an access on memory: a read has none (R55). -/
def BusAccess.perform (acc : BusAccess) (s : State) : State :=
  match acc with
  | .read _ => s
  | .write addr v => writeByte addr v s

end Sys2Proof.Machine
end

