-- ==== Sys2Proof/Machine/HostOps.lean ====
section
/-! DEFINITION. The host's operations (70_reset_and_hazards.md R190 to R200, 10_state.md R39). -/

namespace Sys2Proof.Machine

/-- `construct()` (R190): every register, every cell and PC zero, S Idle. -/
def construct : State :=
  { a := 0x00, x := 0x00, y := 0x00, p := 0x00, pc := 0x0000, mem := [], runStatus := .idle }

/-- Why a host operation is turned away. -/
inductive HostReject where
  /-- `LoadError(n)` (R192): the image has n bytes, more than `MAX_IMAGE`. -/
  | loadError (n : Nat)
  /-- The host acts only between runs (R197). -/
  | runInProgress
deriving DecidableEq, Repr

/-- `load(program)` (R191, R192): the image from `LOAD_BASE` up, then the reset vector; too long an image is rejected and
nothing changes. -/
def load (program : List Byte) (s : State) : Except HostReject State :=
  if program.length ≤ Config.maxImage then
    .ok (writeWord Config.resetVector Config.loadBase (writeBytes Config.loadBase program s))
  else .error (.loadError program.length)

/-- `reset()` (R193) with the parameter `RESET_CLEARS_Y` (R194): A, X and P zeroed, Y by the parameter, PC from the reset
vector, memory kept, S Idle. -/
def resetOp (resetClearsY : Bool) (s : State) : State :=
  { s with
    a := 0x00
    x := 0x00
    y := if resetClearsY then 0x00 else s.y
    p := 0x00
    pc := readWord Config.resetVector s
    runStatus := .idle }

/-- `reset()` with the default of the parameter (R7, R194): Y is kept. -/
def defaultReset (s : State) : State := resetOp Config.resetClearsY s

/-- The start of `load_and_run(program)` (R195): load, then reset, then the start of `run`. Its steps follow. -/
def startLoadAndRun (resetClearsY : Bool) (program : List Byte) (s : State) : Except HostReject State :=
  (load program s).map (fun t => startRun (resetOp resetClearsY t))

/-- The host operations that change state (R197). Introspection reads (R39) are the fields of State, `readReg` and
`readByte`. -/
inductive HostOp where
  | construct
  | load (program : List Byte)
  | reset
  | loadAndRun (program : List Byte)
  | run
  | writeReg (r : Reg) (v : Byte)
  | writePc (v : Word)
  | writeByte (addr : Word) (v : Byte)
deriving DecidableEq, Repr

/-- A host operation, allowed only while no run is in progress (R15, R197). Register and PC writes are the spec's
decision D17 (R39). -/
def hostApply (resetClearsY : Bool) (op : HostOp) (s : State) : Except HostReject State :=
  match s.runStatus with
  | .running => .error .runInProgress
  | .idle | .halted _ =>
    match op with
    | .construct => .ok Machine.construct
    | .load program => Machine.load program s
    | .reset => .ok (resetOp resetClearsY s)
    | .loadAndRun program => startLoadAndRun resetClearsY program s
    | .run => .ok (startRun s)
    | .writeReg r v => .ok (Machine.writeReg r v s)
    | .writePc v => .ok (s.setPc v)
    | .writeByte addr v => .ok (Machine.writeByte addr v s)

end Sys2Proof.Machine
end

