-- ==== Sys2Proof/Machine/Run.lean ====
section
/-! DEFINITION. Runs (40_execution_engine.md R96 to R99): the step repeated until an outcome, with no step limit. A run is
a relation, so that an infinite one has no outcome (R99, R211; D22, notes/assumptions/24.md). -/

namespace Sys2Proof.Machine

/-! ## Over any opcode table (00_scope.md R7, 10_state.md R34) -/

/-- `n` steps. After the end of a run a step changes nothing (R101), so more steps than the run has do no harm. -/
def runForWith (table : OpcodeTable) : Nat → State → Result
  | 0, s => .next s
  | n + 1, s =>
    match stepWith table s with
    | .next t => runForWith table n t
    | .fault r => .fault r
    | .refused r => .refused r

/-- `run()` (R96, R196) over a table, called in `s`, returns the outcome `o` and leaves the state `t`. -/
def RunReturnsWith (table : OpcodeTable) (s : State) (o : RunOutcome) (t : State) : Prop :=
  ∃ n, runForWith table n (startRun s) = .next t ∧ t.runStatus = .halted o

/-- `run()` over a table, called in `s`, never returns (R99). -/
def RunsForeverWith (table : OpcodeTable) (s : State) : Prop :=
  ∀ n, ∃ t, runForWith table n (startRun s) = .next t ∧ t.runStatus = .running

/-- `load_and_run(program)` (R195) over a table, called in `s`, returns the outcome `o` and leaves the state `t`. -/
def LoadAndRunReturnsWith (table : OpcodeTable) (resetClearsY : Bool) (program : List Byte) (s : State) (o : RunOutcome)
    (t : State) : Prop :=
  ∃ u, load program s = .ok u ∧ RunReturnsWith table (resetOp resetClearsY u) o t

/-! ## Over the default table -/

/-- `n` steps over the default table. -/
def runFor (n : Nat) (s : State) : Result := runForWith opcodeTable n s

/-- `run()` called in `s` returns the outcome `o` and leaves the state `t`. -/
def RunReturns (s : State) (o : RunOutcome) (t : State) : Prop := RunReturnsWith opcodeTable s o t

/-- `run()` called in `s` never returns. -/
def RunsForever (s : State) : Prop := RunsForeverWith opcodeTable s

/-- `load_and_run(program)` called in `s` returns the outcome `o` and leaves the state `t`. -/
def LoadAndRunReturns (resetClearsY : Bool) (program : List Byte) (s : State) (o : RunOutcome) (t : State) : Prop :=
  LoadAndRunReturnsWith opcodeTable resetClearsY program s o t

end Sys2Proof.Machine
end

