-- ==== Sys2Proof/Safety.lean ====
section
/-! DEFINITION. What counts as a safe run, and the machine's invariants, in the terms the statements use. -/

namespace Sys2Proof.Machine

/-- The two fatal outcomes (60_exceptions.md R170): an error, as against the normal end. -/
def RunOutcome.fatal : RunOutcome → Bool
  | .normalBreak => false
  | .decodeError _ _ => true
  | .addressingError _ => true

/-- A run over a table from `s` is safe when no outcome it returns is fatal: it ends by BRK or goes on for ever. -/
def SafeRunWith (table : OpcodeTable) (s : State) : Prop := ∀ o t, RunReturnsWith table s o t → o.fatal = false

/-- A safe run over the default table. -/
def SafeRun (s : State) : Prop := SafeRunWith opcodeTable s

/-- Memory is in canonical form. -/
def State.memoryCanonical (s : State) : Prop := s.mem.wf = true

/-- A halted machine's report is true of its state (R95, R165, R172): after `Break`, the byte before PC is 0x00; after
`DecodeError(op, at)`, PC is at + 1, the byte at `at` is `op`, and `op` has no row in the table; `AddressingError` is never
reported (R173). -/
def State.reportTrue (s : State) : Prop :=
  match s.runStatus with
  | .idle | .running => True
  | .halted .normalBreak => readByte (s.pc - 1) s = 0x00
  | .halted (.decodeError op addr) =>
    s.pc = addr + 1 ∧ readByte addr s = op ∧ opcodeTable.descriptor op = none
  | .halted (.addressingError _) => False

/-- The invariant every step keeps. -/
def State.Inv (s : State) : Prop := s.memoryCanonical ∧ s.reportTrue

end Sys2Proof.Machine
end

