-- ==== Sys2Proof/WellFormed.lean ====
section
/-! DEFINITION. Well-formedness. An instruction's operands carry their widths in their types, so what is left to check
is that a table admits it; an opcode table has the invariants of 30_encoding.md R76. -/

namespace Sys2Proof

/-- A table admits an instruction when it has a row with the instruction's opcode, handler and mode (R5, R72). -/
def Instr.wellFormed (t : OpcodeTable) (i : Instr) : Bool :=
  t.any (fun d => d.opcode == i.opcode && d.mnemonic == i.mnemonic && d.mode == i.mode)

/-- "a descriptor's mode is None exactly when its length is 1" (R76). -/
def Descriptor.impliedIffOneByte (d : Descriptor) : Bool := (d.mode == .implied) == (d.length == 1)

/-- "its length is the length of its mode" (R68, R76). -/
def Descriptor.lengthOfMode (d : Descriptor) : Bool := d.length == d.mode.length

/-- "every descriptor with mode None is an instruction whose handler does not call the resolver (TAX, INX, BRK)" (R76). -/
def Descriptor.impliedHandler (d : Descriptor) : Bool :=
  d.mode != .implied || (d.mnemonic == .tax || d.mnemonic == .inx || d.mnemonic == .brk)

/-- "each opcode byte appears at most once" (R69, R76). -/
def OpcodeTable.uniqueOpcodes : OpcodeTable → Bool
  | [] => true
  | d :: t => t.all (fun e => e.opcode != d.opcode) && OpcodeTable.uniqueOpcodes t

/-- The table invariants of R76. -/
def OpcodeTable.wellFormed (t : OpcodeTable) : Bool :=
  t.uniqueOpcodes && t.all (fun d => d.impliedIffOneByte && d.lengthOfMode && d.impliedHandler)

end Sys2Proof
end

