-- ==== Sys2Proof/Certificates/Slice0/Obligations.lean ====
section
/-! DEFINITION. The statements for the provers. Addresses and results are written as natural numbers with the spec's own
moduli wherever a rule gives a formula, so that a statement does not repeat the definition it is about. -/

namespace Sys2Proof.Claims
open Sys2Proof.Machine

/-- The value of the cell at an address given as a number. -/
def cellAt (n : Nat) (s : State) : Nat := (readByte (BitVec.ofNat 16 n) s).toNat

/-- The little-endian word of the zero page at a pointer given as a number: both addresses modulo 2^8. -/
def pointerAt (z : Nat) (s : State) : Nat := cellAt (z % 256) s + 256 * cellAt ((z + 1) % 256) s

/-- The little-endian word at PC, its high byte at PC plus 1 modulo 2^16. -/
def operandWord (s : State) : Nat := cellAt s.pc.toNat s + 256 * cellAt ((s.pc.toNat + 1) % 65536) s

/-- Every byte of memory reads as before. -/
def SameMemory (s t : State) : Prop := ∀ addr : Word, readByte addr t = readByte addr s

/-- Bits 0 and 2 to 6 of P are unchanged. -/
def ReservedFlagsKept (s t : State) : Prop := ∀ i, i < 8 → i ≠ 1 → i ≠ 7 → t.p.getLsbD i = s.p.getLsbD i

/-- Z and N are those of `v`, and the rest of P is unchanged. -/
def FlagsOf (v : Byte) (s t : State) : Prop :=
  (t.p.getLsbD 1 = true ↔ v.toNat = 0) ∧ (t.p.getLsbD 7 = true ↔ 128 ≤ v.toNat) ∧ ReservedFlagsKept s t

/-- PC has moved on by `n` modulo 2^16. -/
def PcAdvanced (n : Nat) (s t : State) : Prop := t.pc.toNat = (s.pc.toNat + n) % 65536

/-- `t` is `s` after A took `v`: flags of `v`, PC on by `n`, nothing else changed. -/
def Loaded (v : Byte) (n : Nat) (s t : State) : Prop :=
  t.a = v ∧ FlagsOf v s t ∧ PcAdvanced n s t ∧ t.x = s.x ∧ t.y = s.y ∧ t.runStatus = s.runStatus ∧ SameMemory s t

/-- `t` is `s` after A was stored at `ea`: PC on by `n`, nothing else changed, every other cell as before. -/
def Stored (ea : Word) (n : Nat) (s t : State) : Prop :=
  readByte ea t = s.a ∧ (∀ addr : Word, addr ≠ ea → readByte addr t = readByte addr s) ∧
  PcAdvanced n s t ∧ t.a = s.a ∧ t.x = s.x ∧ t.y = s.y ∧ t.p = s.p ∧ t.runStatus = s.runStatus

/-- `t` is `s` after X took `v`: flags of `v`, PC on by `n`, nothing else changed. -/
def IndexXSet (v : Byte) (n : Nat) (s t : State) : Prop :=
  t.x = v ∧ FlagsOf v s t ∧ PcAdvanced n s t ∧ t.a = s.a ∧ t.y = s.y ∧ t.runStatus = s.runStatus ∧ SameMemory s t

/-- A run is in progress and `bytes` stand at PC, addresses modulo 2^16. -/
def RunningAt (bytes : List Byte) (s : State) : Prop :=
  s.runStatus = .running ∧ ∀ k, (h : k < bytes.length) → readByte (s.pc + BitVec.ofNat 16 k) s = bytes[k]

/-- The resolver answers the address `n`. -/
def ResolvesTo (m : Mode) (s : State) (n : Nat) : Prop := ∃ ea, resolve m s = .ok ea ∧ ea.toNat = n

/-- With `bytes` at PC, one step loads A from address `ea`. -/
def StepLoads (s : State) (bytes : List Byte) (ea : Nat) : Prop :=
  RunningAt bytes s → ∃ t, step s = .next t ∧ Loaded (readByte (BitVec.ofNat 16 ea) s) bytes.length s t

/-- With `bytes` at PC, one step stores A at address `ea`. -/
def StepStores (s : State) (bytes : List Byte) (ea : Nat) : Prop :=
  RunningAt bytes s → ∃ t, step s = .next t ∧ Stored (BitVec.ofNat 16 ea) bytes.length s t

/-- The handler of the opcode byte at PC, where the byte has a row. -/
def OpcodeHandler (s : State) (mn : Mnemonic) : Prop :=
  s.runStatus = .running ∧ ∃ d, opcodeTable.descriptor (fetchOpcode s) = some d ∧ d.mnemonic = mn

end Sys2Proof.Claims

open Sys2Proof Sys2Proof.Machine Sys2Proof.Claims

/-! ## Encoding -/

/-- Decoding an encoded instruction gives it back, with every operand at every value, whatever bytes follow
(30_encoding.md sections 1 to 3). The opcode bytes are the default table's (D1, log 7). -/
def Obligations.DecodeOfEncodeIsTheInstruction : Prop :=
  ∀ (i : Instr) (rest : List Byte), decode (encode i ++ rest) = .ok (i, rest)

/-- The other direction: bytes that decode are the encoding of what they decode to, followed by the rest. -/
def Obligations.DecodedBytesAreTheEncoding : Prop :=
  ∀ (bytes rest : List Byte) (i : Instr), decode bytes = .ok (i, rest) → bytes = encode i ++ rest

/-- The decoder follows the opcode table: what it reads has the row's handler and mode and takes the row's length in
bytes, whatever the operand bytes are; and every row decodes as soon as its bytes are there. -/
def Obligations.DecoderFollowsTheOpcodeTable : Prop :=
  (∀ (op : Byte) (bytes rest : List Byte) (i : Instr), decode (op :: bytes) = .ok (i, rest) →
    ∃ d, opcodeTable.descriptor op = some d ∧ i.mnemonic = d.mnemonic ∧ i.mode = d.mode ∧
      bytes.length + 1 = d.length + rest.length) ∧
  (∀ (op : Byte) (bytes : List Byte) (d : Descriptor), opcodeTable.descriptor op = some d → d.length ≤ bytes.length + 1 →
    ∃ i rest, decode (op :: bytes) = .ok (i, rest))

/-- Bytes are rejected for want of a row exactly when their first byte is none of the 18 opcode bytes (D1, log 7). -/
def Obligations.OpcodeByteWithoutARowIsRejected : Prop :=
  ∀ (op : Byte) (bytes : List Byte), decode (op :: bytes) = .error (.noDescriptor op) ↔
    op.toNat ∉ [0xA9, 0xA5, 0xB5, 0xAD, 0xBD, 0xB9, 0xA1, 0xB1, 0x85, 0x95, 0x8D, 0x9D, 0x99, 0x81, 0x91, 0xAA, 0xE8, 0x00]

/-- Words written out from 30_encoding.md R70 and R83 decode to the instructions they stand for (D1, log 7). -/
def Obligations.WrittenOutWordsDecode : Prop :=
  decode [0b10101001, 0x05] = .ok (.ldaImmediate 0x05, []) ∧
  decode [0b10111101, 0x34, 0x12] = .ok (.ldaAbsoluteX 0x1234, []) ∧
  decode [0b10010001, 0x20] = .ok (.staIndirectY 0x20, []) ∧
  decode [0b10001101, 0x00, 0x02] = .ok (.staAbsolute 0x0200, []) ∧
  decode [0b10101010] = .ok (.tax, []) ∧
  decode [0b11101000] = .ok (.inx, []) ∧
  decode [0b00000000] = .ok (.brk, [])

/-! ## What each instruction does: completion, result and frame

`exec` runs on the state the fetch left, so PC moves on by the operand bytes only. -/

/-- LDA in each of its eight modes (42_load_store.md section 1), from every state: it completes, A takes the byte at the
effective address (the operand itself in Immediate), Z and N are those of the byte, and nothing else changes. The
addresses are the meaning's own functions; `EffectiveAddressesFollowTheirFormulas` says what they are as numbers. -/
def Obligations.LdaLoadsAccumulatorAndFlagsInEveryMode : Prop :=
  ∀ s : State,
    (∀ v, ∃ t, exec (.ldaImmediate v) s = .next t ∧ Loaded v 1 s t) ∧
    (∀ zz, ∃ t, exec (.ldaZeroPage zz) s = .next t ∧ Loaded (readByte (zeroPageAddress zz) s) 1 s t) ∧
    (∀ zz, ∃ t, exec (.ldaZeroPageX zz) s = .next t ∧ Loaded (readByte (zeroPageIndexed zz s.x) s) 1 s t) ∧
    (∀ w, ∃ t, exec (.ldaAbsolute w) s = .next t ∧ Loaded (readByte w s) 2 s t) ∧
    (∀ w, ∃ t, exec (.ldaAbsoluteX w) s = .next t ∧ Loaded (readByte (absoluteIndexed w s.x) s) 2 s t) ∧
    (∀ w, ∃ t, exec (.ldaAbsoluteY w) s = .next t ∧ Loaded (readByte (absoluteIndexed w s.y) s) 2 s t) ∧
    (∀ zz, ∃ t, exec (.ldaIndirectX zz) s = .next t ∧ Loaded (readByte (indirectXAddress zz s) s) 1 s t) ∧
    (∀ zz, ∃ t, exec (.ldaIndirectY zz) s = .next t ∧ Loaded (readByte (indirectYAddress zz s) s) 1 s t)

/-- STA in each of its seven modes (42_load_store.md section 2), from every state: it completes, the cell at the effective
address takes A, and every other cell, every register and every flag is as before. -/
def Obligations.StaStoresAccumulatorAtOneCellInEveryMode : Prop :=
  ∀ s : State,
    (∀ zz, ∃ t, exec (.staZeroPage zz) s = .next t ∧ Stored (zeroPageAddress zz) 1 s t) ∧
    (∀ zz, ∃ t, exec (.staZeroPageX zz) s = .next t ∧ Stored (zeroPageIndexed zz s.x) 1 s t) ∧
    (∀ w, ∃ t, exec (.staAbsolute w) s = .next t ∧ Stored w 2 s t) ∧
    (∀ w, ∃ t, exec (.staAbsoluteX w) s = .next t ∧ Stored (absoluteIndexed w s.x) 2 s t) ∧
    (∀ w, ∃ t, exec (.staAbsoluteY w) s = .next t ∧ Stored (absoluteIndexed w s.y) 2 s t) ∧
    (∀ zz, ∃ t, exec (.staIndirectX zz) s = .next t ∧ Stored (indirectXAddress zz s) 1 s t) ∧
    (∀ zz, ∃ t, exec (.staIndirectY zz) s = .next t ∧ Stored (indirectYAddress zz s) 1 s t)

/-- TAX (43_register_alu.md section 2), from every state: it completes, X takes A, Z and N are those of A, and nothing
else changes. -/
def Obligations.TaxCopiesAccumulatorToX : Prop :=
  ∀ s : State, ∃ t, exec .tax s = .next t ∧ IndexXSet s.a 0 s t

/-- INX (43_register_alu.md section 3), from every state: it completes, X is X plus 1 modulo 256, Z and N are those of the
new X, bit 0 of P is kept also when X wraps, and nothing else changes. -/
def Obligations.InxAddsOneToXModulo256 : Prop :=
  ∀ s : State, ∃ t, exec .inx s = .next t ∧ t.x.toNat = (s.x.toNat + 1) % 256 ∧ IndexXSet t.x 0 s t

/-- BRK (44_system.md section 1 and decision D7, log 10), from every state: it completes, the run status becomes
`Halted(Break)`, and no register, flag, memory cell or PC changes. -/
def Obligations.BrkEndsTheRunAndChangesNothingElse : Prop :=
  ∀ s : State, ∃ t, exec .brk s = .next t ∧ t.runStatus = .halted .normalBreak ∧
    t.a = s.a ∧ t.x = s.x ∧ t.y = s.y ∧ t.p = s.p ∧ t.pc = s.pc ∧ SameMemory s t

/-! ## Addressing modes -/

/-- The effective-address functions of the meanings, as numbers (41_addressing_modes.md). The Indirect,Y clause rests on
decision D3 (log 9) for the pointer 0xFF. -/
def Obligations.EffectiveAddressesFollowTheirFormulas : Prop :=
  ∀ (zz index : Byte) (w : Word) (s : State),
    (zeroPageAddress zz).toNat = zz.toNat ∧
    (zeroPageIndexed zz index).toNat = (zz.toNat + index.toNat) % 256 ∧
    (absoluteIndexed w index).toNat = (w.toNat + index.toNat) % 65536 ∧
    (indirectXAddress zz s).toNat = pointerAt (zz.toNat + s.x.toNat) s ∧
    (indirectYAddress zz s).toNat = (pointerAt zz.toNat s + s.y.toNat) % 65536

/-- Immediate, ZeroPage, ZeroPage,X and ZeroPage,Y from memory at PC (41_addressing_modes.md R105 to R107). -/
def Obligations.ResolverImmediateAndZeroPageModes : Prop :=
  ∀ s : State,
    ResolvesTo .immediate s s.pc.toNat ∧
    ResolvesTo .zeroPage s (cellAt s.pc.toNat s) ∧
    ResolvesTo .zeroPageX s ((cellAt s.pc.toNat s + s.x.toNat) % 256) ∧
    ResolvesTo .zeroPageY s ((cellAt s.pc.toNat s + s.y.toNat) % 256)

/-- Absolute, Absolute,X and Absolute,Y from memory at PC (41_addressing_modes.md section on R108 and R109). For an operand
that straddles 0xFFFF it rests on decision D2 (log 8). -/
def Obligations.ResolverAbsoluteModes : Prop :=
  ∀ s : State,
    ResolvesTo .absolute s (operandWord s) ∧
    ResolvesTo .absoluteX s ((operandWord s + s.x.toNat) % 65536) ∧
    ResolvesTo .absoluteY s ((operandWord s + s.y.toNat) % 65536)

/-- Indirect,X from memory at PC (41_addressing_modes.md R110): index and pointer both wrap in the zero page. -/
def Obligations.ResolverIndirectX : Prop :=
  ∀ s : State, ResolvesTo .indirectX s (pointerAt (cellAt s.pc.toNat s + s.x.toNat) s)

/-- Indirect,Y from memory at PC. That the pointer 0xFF takes its high byte from 0x0000 is decision D3 (log 9). -/
def Obligations.ResolverIndirectY : Prop :=
  ∀ s : State, ResolvesTo .indirectY s ((pointerAt (cellAt s.pc.toNat s) s + s.y.toNat) % 65536)

/-- The resolver depends on PC, X, Y and the cells it reads, and on nothing else: two states that agree on those resolve
alike and read the same cells, whatever A, P, S and the rest of memory are (41_addressing_modes.md, its table of reads). -/
def Obligations.ResolverDependsOnlyOnTheCellsItReads : Prop :=
  ∀ (m : Mode) (s u : State), u.pc = s.pc → u.x = s.x → u.y = s.y →
    (∀ addr ∈ resolverReads m s, readByte addr u = readByte addr s) →
    resolve m u = resolve m s ∧ resolverReads m u = resolverReads m s

/-! ## Flags and memory operations -/

/-- `UpdateZN` over every value and every P (43_register_alu.md R151): 0 gives Z and not N, 1 to 0x7F neither, 0x80 to 0xFF
N and not Z, and no other bit changes. -/
def Obligations.FlagUpdateSetsZeroAndNegativeOnly : Prop :=
  ∀ v p : Byte,
    ((updateZN v p).getLsbD 1 = true ↔ v.toNat = 0) ∧
    ((updateZN v p).getLsbD 7 = true ↔ v.getLsbD 7 = true) ∧
    (v.toNat = 0 → flagZ (updateZN v p) = true ∧ flagN (updateZN v p) = false) ∧
    (1 ≤ v.toNat → v.toNat ≤ 0x7F → flagZ (updateZN v p) = false ∧ flagN (updateZN v p) = false) ∧
    (0x80 ≤ v.toNat → flagZ (updateZN v p) = false ∧ flagN (updateZN v p) = true) ∧
    (∀ i, i < 8 → i ≠ 1 → i ≠ 7 → (updateZN v p).getLsbD i = p.getLsbD i)

/-- `ZpRead16` (20_memory.md R50): low byte at z, high byte at z plus 1 modulo 2^8. -/
def Obligations.ZeroPageWordReadWrapsInTheZeroPage : Prop :=
  ∀ (z : Byte) (s : State),
    (readZeroPageWord z s).toNat = 256 * cellAt ((z.toNat + 1) % 256) s + cellAt z.toNat s

/-- A word written is the word read back, low byte first, at every address; no other cell and no register changes
(20_memory.md section 1). At 0xFFFF the high byte's address is 0x0000 by decision D2 (log 8). -/
def Obligations.WordWriteThenReadIsLittleEndian : Prop :=
  ∀ (addr w : Word) (s : State), ∃ t, t = writeWord addr w s ∧
    (readByte addr t).toNat = w.toNat % 256 ∧
    cellAt ((addr.toNat + 1) % 65536) t = w.toNat / 256 ∧
    readWord addr t = w ∧
    (∀ b : Word, b ≠ addr → b ≠ addr + 1 → readByte b t = readByte b s) ∧
    t.a = s.a ∧ t.x = s.x ∧ t.y = s.y ∧ t.p = s.p ∧ t.pc = s.pc ∧ t.runStatus = s.runStatus

/-! ## One step -/

/-- During a run, a step at bytes that decode is `exec` of the decoded instruction on the state with PC moved past the
opcode byte; and bytes at PC that are the encoding of an instruction are run as that instruction. -/
def Obligations.StepRunsTheDecodedInstruction : Prop :=
  (∀ (s : State) (i : Instr) (rest : List Byte), s.runStatus = .running → decode (fetchBytes s) = .ok (i, rest) →
    i.wellFormed opcodeTable = true → step s = exec i { s with pc := s.pc + 1 }) ∧
  (∀ (s : State) (i : Instr), RunningAt (encode i) s → step s = exec i { s with pc := s.pc + 1 })

/-- The LOAD handler, shared by every LDA row (42_load_store.md R124), as a whole step: the row's mode resolves at the first operand
byte, A takes the byte at that address, Z and N are those of the byte, PC moves past the instruction, nothing else
changes. -/
def Obligations.StepOfAnLdaRowLoadsFromTheResolvedAddress : Prop :=
  ∀ (s : State) (d : Descriptor), s.runStatus = .running → opcodeTable.descriptor (fetchOpcode s) = some d →
    d.mnemonic = .lda →
    ∃ ea t, resolve d.mode { s with pc := s.pc + 1 } = .ok ea ∧ step s = .next t ∧ Loaded (readByte ea s) d.length s t

/-- The STORE handler, shared by every STA row (42_load_store.md R134), as a whole step: the row's mode resolves at the first operand
byte, the cell at that address takes A, PC moves past the instruction, no flag, register or other cell changes. -/
def Obligations.StepOfAnStaRowStoresAtTheResolvedAddress : Prop :=
  ∀ (s : State) (d : Descriptor), s.runStatus = .running → opcodeTable.descriptor (fetchOpcode s) = some d →
    d.mnemonic = .sta →
    ∃ ea t, resolve d.mode { s with pc := s.pc + 1 } = .ok ea ∧ step s = .next t ∧ Stored ea d.length s t

/-- LDA Immediate as a whole step (42_load_store.md R125). -/
def Obligations.StepLdaImmediate : Prop :=
  ∀ (s : State) (nn : Byte), RunningAt [0xA9, nn] s → ∃ t, step s = .next t ∧ Loaded nn 2 s t

/-- LDA ZeroPage as a whole step (42_load_store.md R126). -/
def Obligations.StepLdaZeroPage : Prop :=
  ∀ (s : State) (zz : Byte), StepLoads s [0xA5, zz] zz.toNat

/-- TAX as a whole step (43_register_alu.md R152). -/
def Obligations.StepTax : Prop :=
  ∀ s : State, RunningAt [0xAA] s → ∃ t, step s = .next t ∧ IndexXSet s.a 1 s t

/-- INX as a whole step (43_register_alu.md R153). -/
def Obligations.StepInx : Prop :=
  ∀ s : State, RunningAt [0xE8] s →
    ∃ t, step s = .next t ∧ t.x.toNat = (s.x.toNat + 1) % 256 ∧ IndexXSet t.x 1 s t

/-- BRK as a whole step (44_system.md section 1): the run ends with `Break`, PC is the opcode address plus 1 (decision D7,
log 10), nothing else changes. -/
def Obligations.StepBrk : Prop :=
  ∀ s : State, RunningAt [0x00] s →
    step s = .next { s with pc := s.pc + 1, runStatus := .halted .normalBreak }

/-- The other six LDA opcodes as whole steps (42_load_store.md section 1). Their opcode bytes are decision D1 (log 7); Indirect,Y
rests on D3 (log 9), operands that straddle 0xFFFF on D2 (log 8). -/
def Obligations.StepLdaOfTheRemainingModes : Prop :=
  ∀ (s : State) (zz ll hh : Byte),
    StepLoads s [0xB5, zz] ((zz.toNat + s.x.toNat) % 256) ∧
    StepLoads s [0xAD, ll, hh] (256 * hh.toNat + ll.toNat) ∧
    StepLoads s [0xBD, ll, hh] ((256 * hh.toNat + ll.toNat + s.x.toNat) % 65536) ∧
    StepLoads s [0xB9, ll, hh] ((256 * hh.toNat + ll.toNat + s.y.toNat) % 65536) ∧
    StepLoads s [0xA1, zz] (pointerAt (zz.toNat + s.x.toNat) s) ∧
    StepLoads s [0xB1, zz] ((pointerAt zz.toNat s + s.y.toNat) % 65536)

/-- The seven STA opcodes as whole steps (42_load_store.md section 2). Their opcode bytes are decision D1 (log 7); Indirect,Y rests
on D3 (log 9), operands that straddle 0xFFFF on D2 (log 8). -/
def Obligations.StepStaOfEveryMode : Prop :=
  ∀ (s : State) (zz ll hh : Byte),
    StepStores s [0x85, zz] zz.toNat ∧
    StepStores s [0x95, zz] ((zz.toNat + s.x.toNat) % 256) ∧
    StepStores s [0x8D, ll, hh] (256 * hh.toNat + ll.toNat) ∧
    StepStores s [0x9D, ll, hh] ((256 * hh.toNat + ll.toNat + s.x.toNat) % 65536) ∧
    StepStores s [0x99, ll, hh] ((256 * hh.toNat + ll.toNat + s.y.toNat) % 65536) ∧
    StepStores s [0x81, zz] (pointerAt (zz.toNat + s.x.toNat) s) ∧
    StepStores s [0x91, zz] ((pointerAt zz.toNat s + s.y.toNat) % 65536)

/-- A byte without a row ends the run with `DecodeError(op, at)`: PC is at plus 1, and A, X, Y, P and memory are as before
the step (60_exceptions.md section 1; the state and the report's content are decision D8, log 11). -/
def Obligations.StepAtAByteWithoutARowReportsDecodeError : Prop :=
  ∀ s : State, s.runStatus = .running → opcodeTable.descriptor (readByte s.pc s) = none →
    step s = .next { s with pc := s.pc + 1, runStatus := .halted (.decodeError (readByte s.pc s) s.pc) }

/-- While no run is in progress a step changes nothing: the model's reading of 40_execution_engine.md section 4 and
10_state.md section 5 together (log 4, DEDUCED: the spec's own `Step` does not consult S). -/
def Obligations.NoActionBetweenRuns : Prop :=
  ∀ s : State, s.runStatus ≠ .running → step s = .next s

/-- Every state steps: the machine never stops with a fault or a refusal (20_memory.md: every address is valid;
60_exceptions.md: each outcome has a state). -/
def Obligations.EveryStepAnswersANextState : Prop :=
  ∀ s : State, ∃ t, step s = .next t

/-! ## Whole-machine rules -/

/-- No step changes a bit of P outside Z and N (10_state.md R29). -/
def Obligations.NoStepChangesAReservedFlag : Prop :=
  ∀ s t : State, step s = .next t → ReservedFlagsKept s t

/-- Who writes the registers (10_state.md sections 1 and 2, its read and write matrix): no step writes Y; A changes only by LDA,
X only by TAX and INX, P only by LDA, TAX and INX. -/
def Obligations.OnlyTheNamedInstructionsWriteRegisters : Prop :=
  ∀ s t : State, step s = .next t →
    t.y = s.y ∧
    (t.a ≠ s.a → OpcodeHandler s .lda) ∧
    (t.x ≠ s.x → OpcodeHandler s .tax ∨ OpcodeHandler s .inx) ∧
    (t.p ≠ s.p → OpcodeHandler s .lda ∨ OpcodeHandler s .tax ∨ OpcodeHandler s .inx)

/-- Memory changes only by STA, and then only the one cell at the address its mode resolves to, which takes A (20_memory.md
section 4, 42_load_store.md section 2). -/
def Obligations.OnlyStaChangesMemoryAndOnlyOneCell : Prop :=
  ∀ s t : State, step s = .next t →
    SameMemory s t ∨
    (s.runStatus = .running ∧ ∃ d ea, opcodeTable.descriptor (fetchOpcode s) = some d ∧ d.mnemonic = .sta ∧
      resolve d.mode (pcIncrement s) = .ok ea ∧ readByte ea t = s.a ∧
      ∀ addr : Word, addr ≠ ea → readByte addr t = readByte addr s)

/-- No instruction reads P (10_state.md section 2): two states that differ only in P step to states that agree on everything
but P. -/
def Obligations.NoInstructionReadsTheStatusRegister : Prop :=
  ∀ (s : State) (q : Byte), ∃ t u, step s = .next t ∧ step { s with p := q } = .next u ∧
    u.a = t.a ∧ u.x = t.x ∧ u.y = t.y ∧ u.pc = t.pc ∧ u.mem = t.mem ∧ u.runStatus = t.runStatus

/-- A step after which the run goes on moves PC past the whole instruction, by the row's length, 1 to 3 bytes, modulo 2^16
(40_execution_engine.md section 2). -/
def Obligations.ContinuingStepAdvancesPcByTheLength : Prop :=
  ∀ s t : State, s.runStatus = .running → step s = .next t → t.runStatus = .running →
    ∃ d, opcodeTable.descriptor (fetchOpcode s) = some d ∧ 1 ≤ d.length ∧ d.length ≤ 3 ∧ PcAdvanced d.length s t

/-- A run ends exactly at a byte 0x00 or a byte without a row, and the step that ends it leaves A, X, Y, P and memory alone
with PC one past that byte (40_execution_engine.md sections 2 and 3; decisions D7 and D8, logs 10 and 11). -/
def Obligations.RunEndsExactlyAtBrkOrAByteWithoutARow : Prop :=
  ∀ s t : State, s.runStatus = .running → step s = .next t →
    (t.runStatus ≠ .running ↔ fetchOpcode s = 0x00 ∨ opcodeTable.descriptor (fetchOpcode s) = none) ∧
    (t.runStatus ≠ .running →
      t.a = s.a ∧ t.x = s.x ∧ t.y = s.y ∧ t.p = s.p ∧ t.mem = s.mem ∧ PcAdvanced 1 s t)

/-- A store is seen by the very next fetch (20_memory.md section 3): STA Absolute to the address right after itself makes the
accumulator the next opcode byte. The opcode byte 0x8D is decision D1 (log 7). -/
def Obligations.StoreIsSeenByTheNextFetch : Prop :=
  ∀ s : State, RunningAt [0x8D, lowByte (s.pc + 3), highByte (s.pc + 3)] s →
    ∃ t, step s = .next t ∧ t.pc = s.pc + 3 ∧ t.runStatus = .running ∧ fetchOpcode t = s.a

/-! ## The engine over any opcode table -/

/-- The step, which decodes whole instructions, is the spec's fetch, resolve, handle and advance pseudocode
(40_execution_engine.md section 1) on the default opcode table, in every state with a run in progress. -/
def Obligations.StepIsTheEngineOnTheDefaultTable : Prop :=
  ∀ s : State, s.runStatus = .running → step s = .next (engineStep opcodeTable s)

/-- The default table meets the table invariants, and under them `AddressingError` cannot occur, whatever the table and the
state (30_encoding.md R76). -/
def Obligations.WellFormedTableNeverRaisesAddressingError : Prop :=
  opcodeTable.wellFormed = true ∧
  ∀ (table : OpcodeTable) (s : State) (m : Mode), table.wellFormed = true → s.runStatus = .running →
    (engineStep table s).runStatus ≠ .halted (.addressingError m)

/-- A row that breaks the invariants, LDA or STA with mode None, ends the run with `AddressingError(None)`, PC at the opcode
address plus 1 and nothing else changed (60_exceptions.md section 1; decision D18, log 13). -/
def Obligations.BrokenTableRowRaisesAddressingError : Prop :=
  ∀ (table : OpcodeTable) (s : State) (d : Descriptor), table.descriptor (fetchOpcode s) = some d →
    d.mode = .implied → d.mnemonic = .lda ∨ d.mnemonic = .sta →
    engineStep table s = { s with pc := s.pc + 1, runStatus := .halted (.addressingError .implied) }

/-- With the five attested rows only, the engine does what the default table does at those opcodes and reports `DecodeError`
at every other byte (90_conflicts.md C8, decision D1, log 7). -/
def Obligations.AttestedTableOnlyDropsRows : Prop :=
  ∀ s : State,
    ((attestedTable.descriptor (fetchOpcode s)).isSome = true → engineStep attestedTable s = engineStep opcodeTable s) ∧
    ((attestedTable.descriptor (fetchOpcode s)).isSome = false →
      engineStep attestedTable s =
        { s with pc := s.pc + 1, runStatus := .halted (.decodeError (readByte s.pc s) s.pc) })

/-- Over every opcode table, the parameter of 00_scope.md section 3, the step is the engine's during a run, rows that `Instr`
has no constructor for included, and nothing while no run is in progress (log 4); and a run over the five attested rows
that ends with `Break` is a run over the default table with the same end, so that the smaller table only stops more runs
(90_conflicts.md C8, decision D1, log 7). -/
def Obligations.StepOverAnyTableIsTheEngineAndAttestedBreaksStand : Prop :=
  (∀ (table : OpcodeTable) (s : State), s.runStatus = .running → stepWith table s = .next (engineStep table s)) ∧
  (∀ (table : OpcodeTable) (s : State), s.runStatus ≠ .running → stepWith table s = .next s) ∧
  (∀ s t : State, RunReturnsWith attestedTable s .normalBreak t → RunReturns s .normalBreak t)

/-! ## Bus accesses -/

/-- The listed bus accesses of a step explain its effect on memory, and at most one of them is a write, the last
(20_memory.md section 3; the order is decision D15, log 12). -/
def Obligations.BusAccessesExplainMemoryAndWriteLast : Prop :=
  ∀ s t : State, s.runStatus = .running → step s = .next t →
    SameMemory ((busAccesses opcodeTable s).foldl (fun u acc => acc.perform u) s) t ∧
    ∀ before acc after, busAccesses opcodeTable s = before ++ acc :: after → acc.isWrite = true → after = []

/-! ## Invariants -/

/-- Every step keeps the invariant: memory in canonical form, and a halted machine's report true of its state
(40_execution_engine.md section 2, 60_exceptions.md section 1; PC in the report is decisions D7 and D8, logs 10 and 11). -/
def Obligations.StepKeepsTheInvariant : Prop :=
  ∀ s t : State, s.Inv → step s = .next t → t.Inv

/-- The reset state has the invariant. -/
def Obligations.ResetStateHasTheInvariant : Prop := State.reset.Inv

/-- Every host operation keeps memory in canonical form, for every image, address and value. -/
def Obligations.HostOperationsKeepMemoryCanonical : Prop :=
  ∀ (resetClearsY : Bool) (op : HostOp) (s t : State), s.memoryCanonical → hostApply resetClearsY op s = .ok t →
    t.memoryCanonical

/-! ## Runs -/

/-- A call of `run` either returns an outcome or never returns (40_execution_engine.md section 3); that a run has no step
limit is decision D22 (log 24). -/
def Obligations.RunReturnsOrGoesOnForever : Prop :=
  ∀ s : State, (∃ o t, RunReturns s o t) ∨ RunsForever s

/-- The outcome of a run and the state it leaves are fixed by the state it starts in, and a run that returns does not also
go on for ever (40_execution_engine.md section 3). -/
def Obligations.RunResultIsUnique : Prop :=
  ∀ (s : State) (o o' : RunOutcome) (t t' : State), RunReturns s o t →
    (RunReturns s o' t' → o' = o ∧ t' = t) ∧ ¬ RunsForever s

/-- What a returned run reports is true of the state it leaves: after `Break` the byte before PC is 0x00; after
`DecodeError(op, at)` the byte at `at` is `op`, has no row, and PC is at plus 1; no run returns `AddressingError`
(40_execution_engine.md section 2, 60_exceptions.md section 1; decisions D7 and D8, logs 10 and 11). -/
def Obligations.RunReportsTheByteThatEndedIt : Prop :=
  ∀ (s : State) (o : RunOutcome) (t : State), RunReturns s o t →
    (o = .normalBreak ∧ readByte (t.pc - 1) t = 0x00) ∨
    (∃ op addr, o = .decodeError op addr ∧ t.pc = addr + 1 ∧ readByte addr t = op ∧ opcodeTable.descriptor op = none)

/-- A run is safe, ending by BRK or never, exactly when every opcode byte it fetches has a row (40_execution_engine.md section 3,
60_exceptions.md section 1). -/
def Obligations.SafeRunIffEveryFetchedByteHasARow : Prop :=
  ∀ s : State, SafeRun s ↔
    ∀ n t, runFor n (startRun s) = .next t → t.runStatus = .running → (opcodeTable.descriptor (fetchOpcode t)).isSome = true

/-- With INX in all 65536 cells a run never ends: after n steps PC and X have moved on by n, and A, Y and memory are as at the
start (40_execution_engine.md section 3; that a run has no step limit is decision D22, log 24). -/
def Obligations.AllInxMemoryRunsForever : Prop :=
  ∀ s : State, (∀ addr : Word, readByte addr s = 0xE8) →
    RunsForever s ∧
    ∀ n, ∃ t, runFor n (startRun s) = .next t ∧ PcAdvanced n s t ∧ t.x.toNat = (s.x.toNat + n) % 256 ∧
      t.a = s.a ∧ t.y = s.y ∧ SameMemory s t

/-! ## Host operations -/

/-- `construct` (70_reset_and_hazards.md R190). -/
def Obligations.ConstructZeroesRegistersAndMemory : Prop :=
  construct.a = 0x00 ∧ construct.x = 0x00 ∧ construct.y = 0x00 ∧ construct.p = 0x00 ∧ construct.pc = 0x0000 ∧
  construct.runStatus = .idle ∧ ∀ addr : Word, readByte addr construct = 0x00

/-- `reset` (70_reset_and_hazards.md R193), for both values of `RESET_CLEARS_Y`. -/
def Obligations.ResetZeroesAXPAndTakesPcFromTheVector : Prop :=
  ∀ (resetClearsY : Bool) (s : State), ∃ t, t = resetOp resetClearsY s ∧
    t.a = 0x00 ∧ t.x = 0x00 ∧ t.p = 0x00 ∧ t.y = (if resetClearsY = true then 0x00 else s.y) ∧
    t.pc.toNat = 256 * cellAt 0xFFFD s + cellAt 0xFFFC s ∧ t.runStatus = .idle ∧ SameMemory s t

/-- The state after reset of the host's interface is `reset` of a newly constructed CPU, with either value of
`RESET_CLEARS_Y` (log 2: the model's reading of "the machine right after reset"). -/
def Obligations.ResetStateIsResetOfConstruct : Prop :=
  ∀ resetClearsY : Bool, core.reset = resetOp resetClearsY construct

/-- `load` of an image that fits (70_reset_and_hazards.md section 1): cell by cell, the vector last (decision D6, log 14), no
register and not S. -/
def Obligations.LoadCopiesTheImageAndSetsTheVector : Prop :=
  ∀ (program : List Byte) (s : State), program.length ≤ 0x8000 → ∃ t, load program s = .ok t ∧
    readByte 0xFFFC t = 0x00 ∧ readByte 0xFFFD t = 0x80 ∧
    (∀ k, (h : k < program.length) → k < 0x7FFC ∨ 0x7FFE ≤ k → readByte (BitVec.ofNat 16 (0x8000 + k)) t = program[k]) ∧
    (∀ addr : Word, addr.toNat < 0x8000 ∨ 0x8000 + program.length ≤ addr.toNat → addr ≠ 0xFFFC → addr ≠ 0xFFFD →
      readByte addr t = readByte addr s) ∧
    t.a = s.a ∧ t.x = s.x ∧ t.y = s.y ∧ t.p = s.p ∧ t.pc = s.pc ∧ t.runStatus = s.runStatus

/-- `load` of more than 0x8000 bytes is rejected with the length, also as the first part of `load_and_run`
(70_reset_and_hazards.md section 1; decision D5, log 14). -/
def Obligations.TooLongAnImageIsRejected : Prop :=
  ∀ (resetClearsY : Bool) (program : List Byte) (s : State), 0x8000 < program.length →
    load program s = .error (.loadError program.length) ∧
    startLoadAndRun resetClearsY program s = .error (.loadError program.length)

/-- `load_and_run` of an image of 1 to 0x8000 bytes starts its run at 0x8000 with A, X and P zero and Y by `RESET_CLEARS_Y`,
its first opcode the image's first byte, every cell below 0x8000 kept (70_reset_and_hazards.md sections 1 and 2; decision
D4, log 3). That PC is 0x8000 for images longer than 0x7FFC bytes too rests on decision D6 (log 14: the vector is written
after the image). The empty image is left out: it has no first byte. -/
def Obligations.LoadAndRunStartsAtTheImage : Prop :=
  ∀ (resetClearsY : Bool) (first : Byte) (program : List Byte) (s : State), program.length < 0x8000 →
    ∃ t, startLoadAndRun resetClearsY (first :: program) s = .ok t ∧ t.runStatus = .running ∧ t.pc = 0x8000 ∧
      fetchOpcode t = first ∧ t.a = 0x00 ∧ t.x = 0x00 ∧ t.p = 0x00 ∧
      t.y = (if resetClearsY = true then 0x00 else s.y) ∧
      ∀ addr : Word, addr.toNat < 0x8000 → readByte addr t = readByte addr s

/-- The host acts only between runs: every operation is turned away while a run is in progress, and none is turned away for that
reason otherwise (70_reset_and_hazards.md section 1; the rejection's form is log 15). -/
def Obligations.HostActsOnlyBetweenRuns : Prop :=
  ∀ (resetClearsY : Bool) (op : HostOp) (s : State),
    hostApply resetClearsY op s = .error .runInProgress ↔ s.runStatus = .running
end

