-- ==== Sys2Proof/Laws/Decode.lean ====
section
/-! SUPPORT. Byte order and widening: splitting and joining a word, and their values as numbers. What the decoder over a
table answers. -/

namespace Sys2Proof

theorem toNat_joinBytes (hi lo : Byte) : (joinBytes hi lo).toNat = 256 * hi.toNat + lo.toNat := by
  simp only [joinBytes, BitVec.toNat_append]
  rw [← Nat.shiftLeft_add_eq_or_of_lt (by omega : lo.toNat < 2 ^ 8), Nat.shiftLeft_eq]
  omega

@[simp] theorem toNat_zext16 (b : Byte) : (zext16 b).toNat = b.toNat := by
  simp only [zext16, BitVec.toNat_setWidth]
  omega

theorem toNat_lowByte (w : Word) : (lowByte w).toNat = w.toNat % 256 := by
  simp [lowByte]

theorem toNat_highByte (w : Word) : (highByte w).toNat = w.toNat / 256 := by
  simp only [highByte, BitVec.extractLsb'_toNat, Nat.shiftRight_eq_div_pow]
  omega

@[simp] theorem joinBytes_high_low (w : Word) : joinBytes (highByte w) (lowByte w) = w := by
  apply BitVec.eq_of_toNat_eq
  rw [toNat_joinBytes, toNat_highByte, toNat_lowByte]
  omega

@[simp] theorem lowByte_joinBytes (hi lo : Byte) : lowByte (joinBytes hi lo) = lo := by
  apply BitVec.eq_of_toNat_eq
  rw [toNat_lowByte, toNat_joinBytes]
  omega

@[simp] theorem highByte_joinBytes (hi lo : Byte) : highByte (joinBytes hi lo) = hi := by
  apply BitVec.eq_of_toNat_eq
  rw [toNat_highByte, toNat_joinBytes]
  omega

/-! ## The decoder over a table -/

theorem decodeWith_of_row {t : OpcodeTable} {op : Byte} {d : Descriptor} (h : t.descriptor op = some d) (rest : List Byte) :
    decodeWith t (op :: rest) = decodeRow d rest := by
  simp only [decodeWith, h]

theorem decodeWith_of_no_row {t : OpcodeTable} {op : Byte} (h : t.descriptor op = none) (rest : List Byte) :
    decodeWith t (op :: rest) = .error (.noDescriptor op) := by
  simp only [decodeWith, h]

theorem decodeByte_ok {f : Byte → Instr} {i : Instr} {bytes rest : List Byte} (h : decodeByte f bytes = .ok (i, rest)) :
    ∃ b, i = f b ∧ bytes = b :: rest := by
  cases bytes with
  | nil => cases h
  | cons b bs => cases h; exact ⟨b, rfl, rfl⟩

theorem decodeWord_ok {f : Word → Instr} {i : Instr} {bytes rest : List Byte} (h : decodeWord f bytes = .ok (i, rest)) :
    ∃ w, i = f w ∧ bytes = lowByte w :: highByte w :: rest := by
  match bytes, h with
  | lo :: hi :: bs, h => cases h; exact ⟨joinBytes hi lo, rfl, by simp⟩

/-- What a row decodes to has the row's handler and mode, the row's length is its mode's, and its operand bytes stand
before the rest. -/
theorem decodeRow_ok {d : Descriptor} {i : Instr} {bytes rest : List Byte} (h : decodeRow d bytes = .ok (i, rest)) :
    i.mnemonic = d.mnemonic ∧ i.mode = d.mode ∧ d.length = d.mode.length ∧ bytes = i.operandBytes ++ rest := by
  unfold decodeRow at h
  split at h
  case isFalse => cases h
  case isTrue hl =>
    obtain ⟨op, mn, m, l, c⟩ := d
    unfold assemble at h
    split at h
    all_goals first
      | (obtain ⟨b, rfl, rfl⟩ := decodeByte_ok h; rename_i hmn hm; cases hmn; cases hm; exact ⟨rfl, rfl, hl, rfl⟩)
      | (obtain ⟨w, rfl, rfl⟩ := decodeWord_ok h; rename_i hmn hm; cases hmn; cases hm; exact ⟨rfl, rfl, hl, rfl⟩)
      | (cases h; rename_i hmn hm; cases hmn; cases hm; exact ⟨rfl, rfl, hl, rfl⟩)
      | cases h

/-- Two bytes after the opcode are enough for every row: what is rejected then has no constructor (R66). -/
theorem decodeRow_two_bytes {d : Descriptor} {b c : Byte} {e : DecodeReject} (h : decodeRow d [b, c] = .error e) :
    e = .noConstructor d := by
  unfold decodeRow at h
  split at h
  case isFalse => cases h; rfl
  case isTrue =>
    unfold assemble at h
    split at h <;> cases h
    rfl

end Sys2Proof
end

