-- ==== Sys2Proof/Laws/Flags.lean ====
section
/-! SUPPORT. What the flag operations do, bit by bit. -/

namespace Sys2Proof.Machine

/-- Writing a bit writes that one bit only (R9). -/
theorem getLsbD_putBit (p : Byte) (i j : Nat) (b : Bool) (hi : i < 8) :
    (putBit p i b).getLsbD j = if j = i then b else p.getLsbD j := by
  unfold putBit
  by_cases hj : j < 8
  · interval_cases i <;> interval_cases j <;> cases b <;> simp
  · have hne : j ≠ i := by omega
    rw [if_neg hne, BitVec.getLsbD_of_ge _ _ (by omega), BitVec.getLsbD_of_ge _ _ (by omega)]

@[simp] theorem aluResult_pass (v : Byte) : aluResult .pass v = v := rfl
@[simp] theorem aluResult_increment (v : Byte) : aluResult .increment v = v + 1 := rfl
@[simp] theorem aluStatus_pass (v p : Byte) : aluStatus .pass v p = updateZN v p := rfl
@[simp] theorem aluStatus_increment (v p : Byte) : aluStatus .increment v p = updateZN (v + 1) p := rfl

end Sys2Proof.Machine
end

