-- ==== Sys2Proof/Laws/Memory.lean ====
section
/-! SUPPORT. The laws of memory as data: what a store changes, and that it keeps the canonical form. -/

namespace Sys2Proof.Machine

/-! ## Reading after storing -/

theorem Memory.cell_insert (m : Memory) (a b : Nat) (v : Byte) :
    Memory.cell (m.insert a v) b = if b = a then v else m.cell b := by
  induction m with
  | nil => simp [Memory.insert, Memory.cell, eq_comm]
  | cons c m ih =>
    obtain ⟨k, w⟩ := c
    simp only [Memory.insert]
    split_ifs with h1 h2 h3 <;> simp only [Memory.cell, ih] <;> split_ifs <;> first | rfl | omega

theorem Memory.cell_erase (m : Memory) (a b : Nat) :
    Memory.cell (m.erase a) b = if b = a then Config.unlistedByte else m.cell b := by
  induction m with
  | nil => simp [Memory.erase, Memory.cell]
  | cons c m ih =>
    obtain ⟨k, w⟩ := c
    simp only [Memory.erase] at ih ⊢
    by_cases hk : k = a
    · subst hk
      rw [List.filter_cons_of_neg (by simp), ih]
      by_cases hb : b = k
      · simp [hb]
      · simp [Memory.cell, hb, Ne.symm hb]
    · rw [List.filter_cons_of_pos (by simpa using hk)]
      simp only [Memory.cell, ih]
      split_ifs <;> first | rfl | omega

/-- A store changes exactly its one cell (R46, R55), in any memory. -/
theorem Memory.cell_setCell (m : Memory) (a b : Nat) (v : Byte) :
    Memory.cell (m.setCell a v) b = if b = a then v else m.cell b := by
  unfold Memory.setCell
  split_ifs with hv <;> simp [Memory.cell_insert, Memory.cell_erase, *]

/-! ## The canonical form -/

theorem Memory.wfFrom_mono (m : Memory) (lo hi : Nat) (h : lo ≤ hi) (hm : Memory.wfFrom hi m = true) :
    Memory.wfFrom lo m = true := by
  cases m with
  | nil => rfl
  | cons c m =>
    simp only [Memory.wfFrom, Bool.and_eq_true, decide_eq_true_eq] at hm ⊢
    exact ⟨⟨⟨h.trans hm.1.1.1, hm.1.1.2⟩, hm.1.2⟩, hm.2⟩

theorem Memory.wfFrom_erase (m : Memory) (lo a : Nat) (hm : Memory.wfFrom lo m = true) :
    Memory.wfFrom lo (m.erase a) = true := by
  induction m generalizing lo with
  | nil => rfl
  | cons c m ih =>
    simp only [Memory.wfFrom, Bool.and_eq_true, decide_eq_true_eq] at hm
    simp only [Memory.erase, List.filter] at ih ⊢
    split
    · simp only [Memory.wfFrom, Bool.and_eq_true, decide_eq_true_eq]
      exact ⟨hm.1, ih _ hm.2⟩
    · exact Memory.wfFrom_mono _ _ _ (by omega) (ih _ hm.2)

theorem Memory.wfFrom_insert (m : Memory) (lo a : Nat) (v : Byte) (hlo : lo ≤ a) (ha : a < Config.memorySize)
    (hv : v ≠ Config.unlistedByte) (hm : Memory.wfFrom lo m = true) : Memory.wfFrom lo (m.insert a v) = true := by
  induction m generalizing lo with
  | nil => simp [Memory.insert, Memory.wfFrom, hlo, ha, hv]
  | cons c m ih =>
    obtain ⟨k, w⟩ := c
    simp only [Memory.wfFrom, Bool.and_eq_true, decide_eq_true_eq] at hm
    obtain ⟨⟨⟨hk, hk'⟩, hw⟩, hrest⟩ := hm
    simp only [Memory.insert]
    split_ifs with h1 h2
    · simp [Memory.wfFrom, hlo, ha, hv, hk', hw, hrest, Nat.succ_le_of_lt h1]
    · subst h2
      simp [Memory.wfFrom, hlo, ha, hv, hrest]
    · have := ih (k + 1) (by omega) hrest
      simp [Memory.wfFrom, hk, hk', hw, this]

/-- Every store keeps the canonical form. -/
theorem Memory.wf_setCell (m : Memory) (a : Nat) (v : Byte) (ha : a < Config.memorySize) (hm : m.wf = true) :
    (m.setCell a v).wf = true := by
  unfold Memory.setCell Memory.wf at *
  split_ifs with hv
  · exact Memory.wfFrom_erase m 0 a hm
  · exact Memory.wfFrom_insert m 0 a v (Nat.zero_le a) ha hv hm

theorem Memory.cell_of_lt (m : Memory) (lo a : Nat) (h : a < lo) (hm : Memory.wfFrom lo m = true) :
    m.cell a = Config.unlistedByte := by
  induction m generalizing lo with
  | nil => rfl
  | cons c m ih =>
    simp only [Memory.wfFrom, Bool.and_eq_true, decide_eq_true_eq] at hm
    have hne : c.1 ≠ a := by omega
    rw [Memory.cell, if_neg hne]
    exact ih (c.1 + 1) (by omega) hm.2

theorem Memory.ext_from (m n : Memory) (lo : Nat) (hm : Memory.wfFrom lo m = true) (hn : Memory.wfFrom lo n = true)
    (h : ∀ a, m.cell a = n.cell a) : m = n := by
  induction m generalizing lo n with
  | nil =>
    cases n with
    | nil => rfl
    | cons c n =>
      have := h c.1
      simp [Memory.cell, Memory.wfFrom] at this hn
      exact absurd this.symm hn.1.2
  | cons c m ih =>
    obtain ⟨k, w⟩ := c
    cases n with
    | nil =>
      have := h k
      simp [Memory.cell, Memory.wfFrom] at this hm
      exact absurd this hm.1.2
    | cons d n =>
      obtain ⟨l, u⟩ := d
      simp only [Memory.wfFrom, Bool.and_eq_true, decide_eq_true_eq, bne_iff_ne] at hm hn
      have hkl : k = l := by
        by_contra hne
        rcases Nat.lt_or_gt_of_ne hne with hlt | hlt
        · have h1 := h k
          simp only [Memory.cell, if_true, if_neg (Ne.symm hne)] at h1
          exact hm.1.2 (h1.trans (Memory.cell_of_lt n (l + 1) k (by omega) hn.2))
        · have h1 := h l
          simp only [Memory.cell, if_true, if_neg hne] at h1
          exact hn.1.2 (h1.symm.trans (Memory.cell_of_lt m (k + 1) l (by omega) hm.2))
      subst hkl
      have hwu : w = u := by simpa [Memory.cell] using h k
      subst hwu
      have hrest : m = n := by
        refine ih n (k + 1) hm.2 hn.2 fun a => ?_
        by_cases ha : k = a
        · subst ha
          rw [Memory.cell_of_lt m (k + 1) k (by omega) hm.2, Memory.cell_of_lt n (k + 1) k (by omega) hn.2]
        · simpa [Memory.cell, ha] using h a
      rw [hrest]

/-- Two canonical memories that read the same everywhere are equal data. -/
theorem Memory.ext_of_wf (m n : Memory) (hm : m.wf = true) (hn : n.wf = true) (h : ∀ a, m.cell a = n.cell a) : m = n :=
  Memory.ext_from m n 0 hm hn h

/-- The memory of the reset state is canonical. -/
theorem State.reset_mem_wf : State.reset.mem.wf = true := rfl

end Sys2Proof.Machine
end

