-- ==== Sys2Proof/Laws/State.lean ====
section
/-! SUPPORT. One lemma per field per update of State, so that no proof unfolds a record update. -/

namespace Sys2Proof.Machine

/-! ## setA -/

@[simp] theorem State.setA_a (v : Byte) (s : State) : (s.setA v).a = v := rfl
@[simp] theorem State.setA_x (v : Byte) (s : State) : (s.setA v).x = s.x := rfl
@[simp] theorem State.setA_y (v : Byte) (s : State) : (s.setA v).y = s.y := rfl
@[simp] theorem State.setA_p (v : Byte) (s : State) : (s.setA v).p = s.p := rfl
@[simp] theorem State.setA_pc (v : Byte) (s : State) : (s.setA v).pc = s.pc := rfl
@[simp] theorem State.setA_mem (v : Byte) (s : State) : (s.setA v).mem = s.mem := rfl
@[simp] theorem State.setA_runStatus (v : Byte) (s : State) : (s.setA v).runStatus = s.runStatus := rfl

/-! ## setX -/

@[simp] theorem State.setX_a (v : Byte) (s : State) : (s.setX v).a = s.a := rfl
@[simp] theorem State.setX_x (v : Byte) (s : State) : (s.setX v).x = v := rfl
@[simp] theorem State.setX_y (v : Byte) (s : State) : (s.setX v).y = s.y := rfl
@[simp] theorem State.setX_p (v : Byte) (s : State) : (s.setX v).p = s.p := rfl
@[simp] theorem State.setX_pc (v : Byte) (s : State) : (s.setX v).pc = s.pc := rfl
@[simp] theorem State.setX_mem (v : Byte) (s : State) : (s.setX v).mem = s.mem := rfl
@[simp] theorem State.setX_runStatus (v : Byte) (s : State) : (s.setX v).runStatus = s.runStatus := rfl

/-! ## setY -/

@[simp] theorem State.setY_a (v : Byte) (s : State) : (s.setY v).a = s.a := rfl
@[simp] theorem State.setY_x (v : Byte) (s : State) : (s.setY v).x = s.x := rfl
@[simp] theorem State.setY_y (v : Byte) (s : State) : (s.setY v).y = v := rfl
@[simp] theorem State.setY_p (v : Byte) (s : State) : (s.setY v).p = s.p := rfl
@[simp] theorem State.setY_pc (v : Byte) (s : State) : (s.setY v).pc = s.pc := rfl
@[simp] theorem State.setY_mem (v : Byte) (s : State) : (s.setY v).mem = s.mem := rfl
@[simp] theorem State.setY_runStatus (v : Byte) (s : State) : (s.setY v).runStatus = s.runStatus := rfl

/-! ## setP -/

@[simp] theorem State.setP_a (v : Byte) (s : State) : (s.setP v).a = s.a := rfl
@[simp] theorem State.setP_x (v : Byte) (s : State) : (s.setP v).x = s.x := rfl
@[simp] theorem State.setP_y (v : Byte) (s : State) : (s.setP v).y = s.y := rfl
@[simp] theorem State.setP_p (v : Byte) (s : State) : (s.setP v).p = v := rfl
@[simp] theorem State.setP_pc (v : Byte) (s : State) : (s.setP v).pc = s.pc := rfl
@[simp] theorem State.setP_mem (v : Byte) (s : State) : (s.setP v).mem = s.mem := rfl
@[simp] theorem State.setP_runStatus (v : Byte) (s : State) : (s.setP v).runStatus = s.runStatus := rfl

/-! ## setPc -/

@[simp] theorem State.setPc_a (v : Word) (s : State) : (s.setPc v).a = s.a := rfl
@[simp] theorem State.setPc_x (v : Word) (s : State) : (s.setPc v).x = s.x := rfl
@[simp] theorem State.setPc_y (v : Word) (s : State) : (s.setPc v).y = s.y := rfl
@[simp] theorem State.setPc_p (v : Word) (s : State) : (s.setPc v).p = s.p := rfl
@[simp] theorem State.setPc_pc (v : Word) (s : State) : (s.setPc v).pc = v := rfl
@[simp] theorem State.setPc_mem (v : Word) (s : State) : (s.setPc v).mem = s.mem := rfl
@[simp] theorem State.setPc_runStatus (v : Word) (s : State) : (s.setPc v).runStatus = s.runStatus := rfl

/-! ## setMem -/

@[simp] theorem State.setMem_a (v : Memory) (s : State) : (s.setMem v).a = s.a := rfl
@[simp] theorem State.setMem_x (v : Memory) (s : State) : (s.setMem v).x = s.x := rfl
@[simp] theorem State.setMem_y (v : Memory) (s : State) : (s.setMem v).y = s.y := rfl
@[simp] theorem State.setMem_p (v : Memory) (s : State) : (s.setMem v).p = s.p := rfl
@[simp] theorem State.setMem_pc (v : Memory) (s : State) : (s.setMem v).pc = s.pc := rfl
@[simp] theorem State.setMem_mem (v : Memory) (s : State) : (s.setMem v).mem = v := rfl
@[simp] theorem State.setMem_runStatus (v : Memory) (s : State) : (s.setMem v).runStatus = s.runStatus := rfl

/-! ## setStatus -/

@[simp] theorem State.setStatus_a (v : RunStatus) (s : State) : (s.setStatus v).a = s.a := rfl
@[simp] theorem State.setStatus_x (v : RunStatus) (s : State) : (s.setStatus v).x = s.x := rfl
@[simp] theorem State.setStatus_y (v : RunStatus) (s : State) : (s.setStatus v).y = s.y := rfl
@[simp] theorem State.setStatus_p (v : RunStatus) (s : State) : (s.setStatus v).p = s.p := rfl
@[simp] theorem State.setStatus_pc (v : RunStatus) (s : State) : (s.setStatus v).pc = s.pc := rfl
@[simp] theorem State.setStatus_mem (v : RunStatus) (s : State) : (s.setStatus v).mem = s.mem := rfl
@[simp] theorem State.setStatus_runStatus (v : RunStatus) (s : State) : (s.setStatus v).runStatus = v := rfl

/-! ## Registers by name (R9) -/

theorem readReg_writeReg (r q : Reg) (v : Byte) (s : State) :
    readReg q (writeReg r v s) = if q = r then v else readReg q s := by
  cases r <;> cases q <;> rfl

@[simp] theorem writeReg_pc (r : Reg) (v : Byte) (s : State) : (writeReg r v s).pc = s.pc := by cases r <;> rfl
@[simp] theorem writeReg_mem (r : Reg) (v : Byte) (s : State) : (writeReg r v s).mem = s.mem := by cases r <;> rfl
@[simp] theorem writeReg_runStatus (r : Reg) (v : Byte) (s : State) : (writeReg r v s).runStatus = s.runStatus := by
  cases r <;> rfl

end Sys2Proof.Machine
end

