-- ==== Sys2Proof/Laws/Ops.lean ====
section
/-! SUPPORT. For each shared operation, everything it can do, so that no later proof unfolds it. -/

namespace Sys2Proof.Machine

/-! ## Memory bus -/

/-- A write changes exactly one cell (R46). -/
theorem readByte_writeByte (addr b : Word) (v : Byte) (s : State) :
    readByte b (writeByte addr v s) = if b = addr then v else readByte b s := by
  simp only [readByte, writeByte, State.setMem_mem, Memory.cell_setCell]
  exact if_congr BitVec.toNat_inj rfl rfl

/-- Reading depends on memory only. -/
theorem readByte_congr (addr : Word) {s t : State} (h : t.mem = s.mem) : readByte addr t = readByte addr s := by
  simp [readByte, h]

@[simp] theorem writeByte_a (addr : Word) (v : Byte) (s : State) : (writeByte addr v s).a = s.a := rfl
@[simp] theorem writeByte_x (addr : Word) (v : Byte) (s : State) : (writeByte addr v s).x = s.x := rfl
@[simp] theorem writeByte_y (addr : Word) (v : Byte) (s : State) : (writeByte addr v s).y = s.y := rfl
@[simp] theorem writeByte_p (addr : Word) (v : Byte) (s : State) : (writeByte addr v s).p = s.p := rfl
@[simp] theorem writeByte_pc (addr : Word) (v : Byte) (s : State) : (writeByte addr v s).pc = s.pc := rfl
@[simp] theorem writeByte_runStatus (addr : Word) (v : Byte) (s : State) :
    (writeByte addr v s).runStatus = s.runStatus := rfl

/-- A write keeps memory canonical. -/
theorem writeByte_wf (addr : Word) (v : Byte) (s : State) (h : s.mem.wf = true) : (writeByte addr v s).mem.wf = true :=
  Memory.wf_setCell s.mem addr.toNat v addr.isLt h

theorem writeWord_wf (addr w : Word) (s : State) (h : s.mem.wf = true) : (writeWord addr w s).mem.wf = true :=
  writeByte_wf _ _ _ (writeByte_wf _ _ _ h)

theorem writeBytes_wf (addr : Word) (bs : List Byte) (s : State) (h : s.mem.wf = true) :
    (writeBytes addr bs s).mem.wf = true := by
  induction bs generalizing addr s with
  | nil => exact h
  | cons b bs ih => exact ih _ _ (writeByte_wf _ _ _ h)

/-- Consecutive writes change no register, not PC and not S. -/
theorem writeBytes_frame (addr : Word) (bs : List Byte) (s : State) :
    (writeBytes addr bs s).a = s.a ∧ (writeBytes addr bs s).x = s.x ∧ (writeBytes addr bs s).y = s.y ∧
    (writeBytes addr bs s).p = s.p ∧ (writeBytes addr bs s).pc = s.pc ∧
    (writeBytes addr bs s).runStatus = s.runStatus := by
  induction bs generalizing addr s with
  | nil => exact ⟨rfl, rfl, rfl, rfl, rfl, rfl⟩
  | cons b bs ih => exact ih (addr + 1) (writeByte addr b s)

/-! ## Program counter -/

@[simp] theorem pcIncrement_pc (s : State) : (pcIncrement s).pc = s.pc + 1 := rfl
@[simp] theorem pcIncrement_a (s : State) : (pcIncrement s).a = s.a := rfl
@[simp] theorem pcIncrement_x (s : State) : (pcIncrement s).x = s.x := rfl
@[simp] theorem pcIncrement_y (s : State) : (pcIncrement s).y = s.y := rfl
@[simp] theorem pcIncrement_p (s : State) : (pcIncrement s).p = s.p := rfl
@[simp] theorem pcIncrement_mem (s : State) : (pcIncrement s).mem = s.mem := rfl
@[simp] theorem pcIncrement_runStatus (s : State) : (pcIncrement s).runStatus = s.runStatus := rfl
@[simp] theorem readByte_pcIncrement (addr : Word) (s : State) : readByte addr (pcIncrement s) = readByte addr s := rfl

@[simp] theorem pcAdvance_a (n : Nat) (s : State) : (pcAdvance n s).a = s.a := rfl
@[simp] theorem pcAdvance_x (n : Nat) (s : State) : (pcAdvance n s).x = s.x := rfl
@[simp] theorem pcAdvance_y (n : Nat) (s : State) : (pcAdvance n s).y = s.y := rfl
@[simp] theorem pcAdvance_p (n : Nat) (s : State) : (pcAdvance n s).p = s.p := rfl
@[simp] theorem pcAdvance_mem (n : Nat) (s : State) : (pcAdvance n s).mem = s.mem := rfl
@[simp] theorem pcAdvance_runStatus (n : Nat) (s : State) : (pcAdvance n s).runStatus = s.runStatus := rfl
@[simp] theorem readByte_pcAdvance (addr : Word) (n : Nat) (s : State) :
    readByte addr (pcAdvance n s) = readByte addr s := rfl

/-- The operand advance of a mode moves PC by the mode's operand bytes (R68, R91). -/
theorem pcAdvance_length_pc (m : Mode) (s : State) :
    (pcAdvance m.length s).pc = s.pc + BitVec.ofNat 16 (m.length - 1) := by
  cases m <;> simp only [pcAdvance, State.setPc_pc, Mode.length] <;> bv_omega

/-! ## Handlers -/

/-- LOAD writes A and the flags of the value, nothing else (R124). -/
theorem loadA_spec (v : Byte) (s : State) :
    (loadA v s).a = v ∧ (loadA v s).p = updateZN v s.p ∧ (loadA v s).x = s.x ∧ (loadA v s).y = s.y ∧
    (loadA v s).pc = s.pc ∧ (loadA v s).mem = s.mem ∧ (loadA v s).runStatus = s.runStatus :=
  ⟨rfl, rfl, rfl, rfl, rfl, rfl, rfl⟩

/-- STORE writes one cell, nothing else (R134). -/
theorem storeA_spec (ea : Word) (s : State) :
    (storeA ea s).a = s.a ∧ (storeA ea s).p = s.p ∧ (storeA ea s).x = s.x ∧ (storeA ea s).y = s.y ∧
    (storeA ea s).pc = s.pc ∧ (storeA ea s).runStatus = s.runStatus ∧
    ∀ b, readByte b (storeA ea s) = if b = ea then s.a else readByte b s :=
  ⟨rfl, rfl, rfl, rfl, rfl, rfl, fun b => readByte_writeByte ea b s.a s⟩

/-- TRANSFER writes X and the flags of A, nothing else (R152). -/
theorem transferAX_spec (s : State) :
    (transferAX s).x = s.a ∧ (transferAX s).p = updateZN s.a s.p ∧ (transferAX s).a = s.a ∧ (transferAX s).y = s.y ∧
    (transferAX s).pc = s.pc ∧ (transferAX s).mem = s.mem ∧ (transferAX s).runStatus = s.runStatus :=
  ⟨rfl, rfl, rfl, rfl, rfl, rfl, rfl⟩

/-- INCREMENT writes X and the flags of the new X, nothing else (R153). -/
theorem incrementX_spec (s : State) :
    (incrementX s).x = s.x + 1 ∧ (incrementX s).p = updateZN (s.x + 1) s.p ∧ (incrementX s).a = s.a ∧
    (incrementX s).y = s.y ∧ (incrementX s).pc = s.pc ∧ (incrementX s).mem = s.mem ∧
    (incrementX s).runStatus = s.runStatus :=
  ⟨rfl, rfl, rfl, rfl, rfl, rfl, rfl⟩

/-- The end of a run writes the run status only (R175). -/
theorem endRun_spec (o : RunOutcome) (s : State) :
    (endRun o s).runStatus = .halted o ∧ (endRun o s).a = s.a ∧ (endRun o s).x = s.x ∧ (endRun o s).y = s.y ∧
    (endRun o s).p = s.p ∧ (endRun o s).pc = s.pc ∧ (endRun o s).mem = s.mem :=
  ⟨rfl, rfl, rfl, rfl, rfl, rfl, rfl⟩

/-- The start of a run writes the run status only (R33). -/
theorem startRun_spec (s : State) :
    (startRun s).runStatus = .running ∧ (startRun s).a = s.a ∧ (startRun s).x = s.x ∧ (startRun s).y = s.y ∧
    (startRun s).p = s.p ∧ (startRun s).pc = s.pc ∧ (startRun s).mem = s.mem :=
  ⟨rfl, rfl, rfl, rfl, rfl, rfl, rfl⟩

/-! ## Shapes of a meaning: if it answers next, then this state -/

theorem complete_next {m : Mode} {s t : State} (h : complete m s = .next t) : t = pcAdvance m.length s := by
  cases h; rfl

theorem loadFrom_next {m : Mode} {ea : Word} {s t : State} (h : loadFrom m ea s = .next t) :
    t = pcAdvance m.length (loadA (readByte ea s) s) := complete_next h

theorem storeTo_next {m : Mode} {ea : Word} {s t : State} (h : storeTo m ea s = .next t) :
    t = pcAdvance m.length (storeA ea s) := complete_next h

theorem haltBreak_next {s t : State} (h : haltBreak s = .next t) : t = endRun .normalBreak s := by
  cases h; rfl

theorem decodeFailure_next {s t : State} (h : decodeFailure s = .next t) : t = raiseDecodeError s := by
  cases h; rfl

theorem betweenRuns_next {s t : State} (h : betweenRuns s = .next t) : t = s := by
  cases h; rfl

/-! ## Host operations -/

/-- A load that is accepted had an image that fits, and left the image and then the vector (R191). -/
theorem load_ok {program : List Byte} {s t : State} (h : load program s = .ok t) :
    program.length ≤ Config.maxImage ∧
    t = writeWord Config.resetVector Config.loadBase (writeBytes Config.loadBase program s) := by
  unfold load at h
  split at h
  · exact ⟨‹_›, by cases h; rfl⟩
  · cases h

/-- `reset` writes A, X, P, PC and S, and Y by its parameter; memory is kept (R193). -/
theorem resetOp_spec (c : Bool) (s : State) :
    (resetOp c s).a = 0 ∧ (resetOp c s).x = 0 ∧ (resetOp c s).p = 0 ∧ (resetOp c s).y = (if c then 0 else s.y) ∧
    (resetOp c s).pc = readWord Config.resetVector s ∧ (resetOp c s).mem = s.mem ∧ (resetOp c s).runStatus = .idle :=
  ⟨rfl, rfl, rfl, rfl, rfl, rfl, rfl⟩

end Sys2Proof.Machine
end

