-- ==== Sys2Proof/Laws/PerInstr.lean ====
section
/-! SUPPORT. Statements about every instruction as syntax, one lemma per constructor. -/

/-! ## Family TableRow: every instruction has its row -/

/-- The default table's row for the instruction's opcode has its handler, its mode, and as many bytes as it encodes to. -/
def Sys2Proof.Laws.TableRow.Statement (i : Sys2Proof.Instr) : Prop :=
  ∃ d, Sys2Proof.opcodeTable.descriptor i.opcode = some d ∧ d.mnemonic = i.mnemonic ∧ d.mode = i.mode ∧
    d.length = (Sys2Proof.encode i).length

namespace Sys2Proof.Laws.TableRow

theorem ldaImmediate (v : Byte) : Statement (.ldaImmediate v) := ⟨_, rfl, rfl, rfl, rfl⟩
theorem ldaZeroPage (zz : Byte) : Statement (.ldaZeroPage zz) := ⟨_, rfl, rfl, rfl, rfl⟩
theorem ldaZeroPageX (zz : Byte) : Statement (.ldaZeroPageX zz) := ⟨_, rfl, rfl, rfl, rfl⟩
theorem ldaAbsolute (w : Word) : Statement (.ldaAbsolute w) := ⟨_, rfl, rfl, rfl, rfl⟩
theorem ldaAbsoluteX (w : Word) : Statement (.ldaAbsoluteX w) := ⟨_, rfl, rfl, rfl, rfl⟩
theorem ldaAbsoluteY (w : Word) : Statement (.ldaAbsoluteY w) := ⟨_, rfl, rfl, rfl, rfl⟩
theorem ldaIndirectX (zz : Byte) : Statement (.ldaIndirectX zz) := ⟨_, rfl, rfl, rfl, rfl⟩
theorem ldaIndirectY (zz : Byte) : Statement (.ldaIndirectY zz) := ⟨_, rfl, rfl, rfl, rfl⟩
theorem staZeroPage (zz : Byte) : Statement (.staZeroPage zz) := ⟨_, rfl, rfl, rfl, rfl⟩
theorem staZeroPageX (zz : Byte) : Statement (.staZeroPageX zz) := ⟨_, rfl, rfl, rfl, rfl⟩
theorem staAbsolute (w : Word) : Statement (.staAbsolute w) := ⟨_, rfl, rfl, rfl, rfl⟩
theorem staAbsoluteX (w : Word) : Statement (.staAbsoluteX w) := ⟨_, rfl, rfl, rfl, rfl⟩
theorem staAbsoluteY (w : Word) : Statement (.staAbsoluteY w) := ⟨_, rfl, rfl, rfl, rfl⟩
theorem staIndirectX (zz : Byte) : Statement (.staIndirectX zz) := ⟨_, rfl, rfl, rfl, rfl⟩
theorem staIndirectY (zz : Byte) : Statement (.staIndirectY zz) := ⟨_, rfl, rfl, rfl, rfl⟩
theorem tax : Statement .tax := ⟨_, rfl, rfl, rfl, rfl⟩
theorem inx : Statement .inx := ⟨_, rfl, rfl, rfl, rfl⟩
theorem brk : Statement .brk := ⟨_, rfl, rfl, rfl, rfl⟩

end Sys2Proof.Laws.TableRow
end

