-- ==== Sys2Proof/Laws/Step.lean ====
section
/-! SUPPORT. Inversion of one step, over any opcode table and over the default one, so that no later proof unfolds `step`
or `stepWith`. -/

namespace Sys2Proof.Machine

/-! ## Over any opcode table -/

section table
variable {table : OpcodeTable} {s : State}

theorem stepWith_of_not_running (h : s.runStatus ≠ .running) : stepWith table s = betweenRuns s := by
  unfold stepWith
  cases hs : s.runStatus with
  | idle => rfl
  | running => exact absurd hs h
  | halted o => rfl

theorem stepWith_of_decode {i : Instr} {rest : List Byte} (h : s.runStatus = .running)
    (hd : decodeWith table (fetchBytes s) = .ok (i, rest)) : stepWith table s = exec i (pcIncrement s) := by
  unfold stepWith; rw [h, hd]

theorem stepWith_of_reject {e : DecodeReject} (h : s.runStatus = .running)
    (hd : decodeWith table (fetchBytes s) = .error e) : stepWith table s = rejected e s := by
  unfold stepWith; rw [h, hd]

/-- Everything a step over a table can be: no run in progress and nothing happens, or no row and the run ends, or a row
decoded to an instruction that runs on the fetched state, or a row without a constructor executed from its descriptor. -/
theorem stepWith_cases (table : OpcodeTable) (s : State) :
    (s.runStatus ≠ .running ∧ stepWith table s = .next s) ∨
    (s.runStatus = .running ∧ table.descriptor (fetchOpcode s) = none ∧ stepWith table s = .next (raiseDecodeError s)) ∨
    (s.runStatus = .running ∧ ∃ d, table.descriptor (fetchOpcode s) = some d ∧
      ((∃ i rest, decodeRow d [readByte (s.pc + 1) s, readByte (s.pc + 2) s] = .ok (i, rest) ∧
          stepWith table s = exec i (pcIncrement s)) ∨
        stepWith table s = .next (engineExecute d (pcIncrement s)))) := by
  by_cases h : s.runStatus = .running
  · cases hd : table.descriptor (fetchOpcode s) with
    | none => exact .inr (.inl ⟨h, rfl, stepWith_of_reject h (decodeWith_of_no_row hd _)⟩)
    | some d =>
      refine .inr (.inr ⟨h, d, rfl, ?_⟩)
      have hw : decodeWith table (fetchBytes s) = decodeRow d [readByte (s.pc + 1) s, readByte (s.pc + 2) s] :=
        decodeWith_of_row hd _
      cases hr : decodeRow d [readByte (s.pc + 1) s, readByte (s.pc + 2) s] with
      | ok r => exact .inl ⟨r.1, r.2, rfl, stepWith_of_decode h (hw.trans hr)⟩
      | error e =>
        have he : e = .noConstructor d := decodeRow_two_bytes hr
        subst he
        exact .inr (stepWith_of_reject h (hw.trans hr))
  · exact .inl ⟨h, stepWith_of_not_running h⟩

@[simp] theorem runForWith_zero (table : OpcodeTable) (s : State) : runForWith table 0 s = .next s := rfl

theorem runForWith_succ {n : Nat} {t : State} (h : stepWith table s = .next t) :
    runForWith table (n + 1) s = runForWith table n t := by
  simp [runForWith, h]

end table

/-! ## Over the default table -/

/-- Every row of the default table has its constructor. -/
theorem decode_ne_noConstructor (bytes : List Byte) (d : Descriptor) : decode bytes ≠ .error (.noConstructor d) := by
  intro h
  cases bytes with
  | nil => cases h
  | cons op rest =>
    cases hd : opcodeTable.descriptor op with
    | none => rw [decode, decodeWith_of_no_row hd] at h; cases h
    | some e =>
      rw [decode, decodeWith_of_row hd] at h
      have hm : e ∈ opcodeTable := List.mem_of_find?_eq_some hd
      simp only [opcodeTable, List.mem_cons, List.not_mem_nil, or_false] at hm
      rcases hm with rfl | rfl | rfl | rfl | rfl | rfl | rfl | rfl | rfl | rfl | rfl | rfl | rfl | rfl | rfl | rfl | rfl | rfl
      all_goals first
        | cases h
        | (rcases rest with _ | ⟨b, _ | ⟨c, rest⟩⟩ <;> cases h)

theorem step_of_not_running {s : State} (h : s.runStatus ≠ .running) : step s = betweenRuns s :=
  stepWith_of_not_running h

theorem step_of_decode {s : State} {i : Instr} {rest : List Byte} (h : s.runStatus = .running)
    (hd : decode (fetchBytes s) = .ok (i, rest)) : step s = exec i (pcIncrement s) := stepWith_of_decode h hd

theorem step_of_reject {s : State} {e : DecodeReject} (h : s.runStatus = .running)
    (hd : decode (fetchBytes s) = .error e) : step s = decodeFailure s := by
  refine (stepWith_of_reject h hd).trans ?_
  cases e with
  | noDescriptor op => rfl
  | noConstructor d => exact absurd hd (decode_ne_noConstructor _ d)
  | truncated => rfl

/-- Everything a step can be: no run in progress and nothing happens, or the decoded instruction runs on the fetched state,
or the byte is rejected and the run ends. -/
theorem step_cases (s : State) :
    (s.runStatus ≠ .running ∧ step s = .next s) ∨
    (s.runStatus = .running ∧ ∃ i rest, decode (fetchBytes s) = .ok (i, rest) ∧ step s = exec i (pcIncrement s)) ∨
    (s.runStatus = .running ∧ ∃ e, decode (fetchBytes s) = .error e ∧ step s = .next (raiseDecodeError s)) := by
  by_cases h : s.runStatus = .running
  · cases hd : decode (fetchBytes s) with
    | ok r => exact .inr (.inl ⟨h, r.1, r.2, rfl, step_of_decode h hd⟩)
    | error e => exact .inr (.inr ⟨h, e, rfl, step_of_reject h hd⟩)
  · exact .inl ⟨h, step_of_not_running h⟩

@[simp] theorem runFor_zero (s : State) : runFor 0 s = .next s := rfl

theorem runFor_succ {n : Nat} {s t : State} (h : step s = .next t) : runFor (n + 1) s = runFor n t :=
  runForWith_succ h


/-- The host's machine is the one over the default table. -/
theorem core_eq_coreWith : Sys2Proof.core = coreWith opcodeTable := rfl

end Sys2Proof.Machine
end

