-- ==== Sys2Proof/Tests/Slice0.lean ====
section
/-! SUPPORT. Tests with expected results from spec/95_test_vectors.md and the spec's own examples, and a witness for the
hypotheses of every statement that has some. -/

namespace Sys2Proof.Tests
open Sys2Proof.Machine Sys2Proof.Claims

/-! ## Helpers -/

/-- A state with a run in progress, `bytes` at `at_`, and PC there. -/
def program (at_ : Word) (bytes : List Byte) (s : State) : State := startRun (writeBytes at_ bytes (s.setPc at_))

/-- The state a step answers. -/
def after (s : State) : Option State :=
  match step s with
  | .next t => some t
  | .fault _ => none
  | .refused _ => none

/-- A, X, Y, P and PC after one step. -/
def regs (s : State) : Option (Byte × Byte × Byte × Byte × Word) :=
  (after s).map (fun t => (t.a, t.x, t.y, t.p, t.pc))

/-- One cell after one step. -/
def cellAfter (addr : Word) (s : State) : Option Byte := (after s).map (readByte addr)

/-- S after one step. -/
def statusAfter (s : State) : Option RunStatus := (after s).map (·.runStatus)

/-- A pointer in the zero page: `lo` at z, `hi` at z + 1. -/
def withPointer (z lo hi : Byte) (s : State) : State := writeByte (zext16 (z + 1)) hi (writeByte (zext16 z) lo s)

/-- The state after reset. -/
def fresh : State := State.reset

/-! ## WellFormed: each check refuses an ill-formed term -/

theorem test_instr_not_in_table : (Instr.staAbsolute 0x0200).wellFormed attestedTable = false := by decide
theorem test_implied_with_two_bytes : Descriptor.impliedIffOneByte ⟨0xAA, .tax, .implied, 2, 2⟩ = false := by decide
theorem test_length_not_of_mode : Descriptor.lengthOfMode ⟨0xA9, .lda, .immediate, 3, 2⟩ = false := by decide
theorem test_lda_without_mode : Descriptor.impliedHandler ⟨0xA9, .lda, .implied, 1, 2⟩ = false := by decide
theorem test_opcode_twice :
    OpcodeTable.uniqueOpcodes [⟨0xAA, .tax, .implied, 1, 2⟩, ⟨0xAA, .inx, .implied, 1, 2⟩] = false := by decide
theorem test_table_with_bad_row : OpcodeTable.wellFormed [⟨0xA9, .lda, .implied, 1, 2⟩] = false := by decide
theorem test_default_table_well_formed : opcodeTable.wellFormed = true := by decide
theorem test_attested_table_well_formed : attestedTable.wellFormed = true := by decide

/-! ## Decoding: every constructor from its word, bit by bit from opcode_table.json -/

theorem test_decode_ldaImmediate : decode [0b10101001, 0b00000101] = .ok (.ldaImmediate 0x05, []) := rfl
theorem test_decode_ldaZeroPage : decode [0b10100101, 0b00010000] = .ok (.ldaZeroPage 0x10, []) := rfl
theorem test_decode_ldaZeroPageX : decode [0b10110101, 0b10000000] = .ok (.ldaZeroPageX 0x80, []) := rfl
theorem test_decode_ldaAbsolute : decode [0b10101101, 0b00000000, 0b00000010] = .ok (.ldaAbsolute 0x0200, []) := rfl
theorem test_decode_ldaAbsoluteX : decode [0b10111101, 0b00110100, 0b00010010] = .ok (.ldaAbsoluteX 0x1234, []) := rfl
theorem test_decode_ldaAbsoluteY : decode [0b10111001, 0b11111110, 0b11111111] = .ok (.ldaAbsoluteY 0xFFFE, []) := rfl
theorem test_decode_ldaIndirectX : decode [0b10100001, 0b00100000] = .ok (.ldaIndirectX 0x20, []) := rfl
theorem test_decode_ldaIndirectY : decode [0b10110001, 0b10000110] = .ok (.ldaIndirectY 0x86, []) := rfl
theorem test_decode_staZeroPage : decode [0b10000101, 0b00010000] = .ok (.staZeroPage 0x10, []) := rfl
theorem test_decode_staZeroPageX : decode [0b10010101, 0b00010000] = .ok (.staZeroPageX 0x10, []) := rfl
theorem test_decode_staAbsolute : decode [0b10001101, 0b00000000, 0b00000010] = .ok (.staAbsolute 0x0200, []) := rfl
theorem test_decode_staAbsoluteX : decode [0b10011101, 0b11110000, 0b00010010] = .ok (.staAbsoluteX 0x12F0, []) := rfl
theorem test_decode_staAbsoluteY : decode [0b10011001, 0b00110100, 0b00010010] = .ok (.staAbsoluteY 0x1234, []) := rfl
theorem test_decode_staIndirectX : decode [0b10000001, 0b00100000] = .ok (.staIndirectX 0x20, []) := rfl
theorem test_decode_staIndirectY : decode [0b10010001, 0b00100000] = .ok (.staIndirectY 0x20, []) := rfl
theorem test_decode_tax : decode [0b10101010] = .ok (.tax, []) := rfl
theorem test_decode_inx : decode [0b11101000] = .ok (.inx, []) := rfl
theorem test_decode_brk : decode [0b00000000] = .ok (.brk, []) := rfl

/-- 0x89, the slot STA Immediate would have, has no row (R72, R142). -/
theorem test_decode_rejects_0x89 : decode [0x89, 0x00, 0x00] = .error (.noDescriptor 0x89) := rfl
theorem test_decode_rejects_truncated : decode [0xAD, 0x00] = .error .truncated := rfl
/-- How many of the 64 bytes from `lo` up have no descriptor. -/
def rowless (lo : Nat) : Nat :=
  ((List.range' lo 64).filter (fun n => (opcodeTable.descriptor (BitVec.ofNat 8 n)).isNone)).length
/-- 238 bytes have no descriptor (R74), a quarter of the bytes at a time. -/
theorem test_bytes_without_descriptor :
    rowless 0x00 = 63 ∧ rowless 0x40 = 64 ∧ rowless 0x80 = 48 ∧ rowless 0xC0 = 63 ∧ 63 + 64 + 48 + 63 = 238 := by decide
theorem test_table_word : decodeTableWord 24 0x1234BD = some (.ldaAbsoluteX 0x1234) := by decide
theorem test_table_word_short : decodeTableWord 8 0xFFA9 = some (.ldaImmediate 0x00) := by decide
theorem test_table_word_rejected : decodeTableWord 8 0x02 = none := by decide
theorem test_first_instruction_after_reset :
    regs (State.reset.withFetchWord 16 0x80A9) = some (0x80, 0x00, 0x00, 0x80, 0x0002) := by decide

/-! ## Other opcode tables (00_scope.md R7, 92_eei_decisions.md D1) -/

/-- S after one step over a table. -/
def statusAfterWith (table : OpcodeTable) (s : State) : Option RunStatus :=
  match stepWith table s with
  | .next t => some t.runStatus
  | .fault _ => none
  | .refused _ => none

/-- A table with a row of the resolver's ZeroPage,Y (R107), which the default table does not use. -/
def zeroPageYTable : OpcodeTable := [⟨0xB6, .lda, .zeroPageY, 2, 4⟩]

/-- D1: with the five attested rows only, 0x8D is a decode error, and 0xA9 runs. -/
theorem test_attested_table_rejects_sta :
    statusAfterWith attestedTable (program 0x8000 [0x8D, 0x00, 0x02] fresh) = some (.halted (.decodeError 0x8D 0x8000)) := by
  decide
theorem test_attested_table_runs_lda :
    statusAfterWith attestedTable (program 0x8000 [0xA9, 0x05] fresh) = some .running := by decide
theorem test_row_without_constructor :
    decodeWith zeroPageYTable [0xB6, 0xFF] = .error (.noConstructor ⟨0xB6, .lda, .zeroPageY, 2, 4⟩) := rfl
/-- R107 and R124: A takes the cell at 0xFF + 2 in the zero page, PC is on by 2. -/
theorem test_row_without_constructor_runs :
    stepWith zeroPageYTable (program 0x8000 [0xB6, 0xFF] ((writeByte 0x0001 0x42 fresh).setY 0x02)) =
    .next ((((program 0x8000 [0xB6, 0xFF] ((writeByte 0x0001 0x42 fresh).setY 0x02)).setA 0x42).setP 0x00).setPc 0x8002) := rfl

/-! ## LDA (95_test_vectors.md 2.3) -/

/-- V-L3: Z and N both cleared. -/
theorem test_lda_immediate_clears : regs (program 0x8000 [0xA9, 0x7F] (fresh.setP 0x82)) =
    some (0x7F, 0x00, 0x00, 0x00, 0x8002) := by decide
/-- V-L4: the six other bits are kept. -/
theorem test_lda_immediate_keeps_reserved : regs (program 0x8000 [0xA9, 0x01] (fresh.setP 0x7D)) =
    some (0x01, 0x00, 0x00, 0x7D, 0x8002) := by decide
/-- V-L5. -/
theorem test_lda_zero_page : regs (program 0x8000 [0xA5, 0x10] (writeByte 0x0010 0x55 fresh)) =
    some (0x55, 0x00, 0x00, 0x00, 0x8002) := by decide
/-- V-L6: the sum wraps in the zero page. -/
theorem test_lda_zero_page_x : regs (program 0x8000 [0xB5, 0x80] ((writeByte 0x007F 0x80 fresh).setX 0xFF)) =
    some (0x80, 0xFF, 0x00, 0x80, 0x8002) := by decide
/-- V-L7. -/
theorem test_lda_absolute : regs (program 0x8000 [0xAD, 0x00, 0x02] (fresh.setA 0x33)) =
    some (0x00, 0x00, 0x00, 0x02, 0x8003) := by decide
/-- V-L13: the operand straddles the top of memory. -/
theorem test_lda_absolute_straddles : regs (program 0xFFFE [0xAD, 0x10, 0x00] (writeByte 0x0010 0x99 fresh)) =
    some (0x99, 0x00, 0x00, 0x80, 0x0001) := by decide
/-- V-L9: carry into the high byte. -/
theorem test_lda_absolute_x : regs (program 0x8000 [0xBD, 0xF0, 0x12] ((writeByte 0x1310 0x7F fresh).setX 0x20)) =
    some (0x7F, 0x20, 0x00, 0x00, 0x8003) := by decide
/-- V-L10: wrap at 0xFFFF. -/
theorem test_lda_absolute_y : regs (program 0x8000 [0xB9, 0xFF, 0xFF] ((writeByte 0x0001 0xFF fresh).setY 0x02)) =
    some (0xFF, 0x00, 0x02, 0x80, 0x8003) := by decide
/-- V-L11. -/
theorem test_lda_indirect_x :
    regs (program 0x8000 [0xA1, 0x20] ((writeByte 0x2074 0xC3 (withPointer 0x24 0x74 0x20 fresh)).setX 0x04)) =
    some (0xC3, 0x04, 0x00, 0x80, 0x8002) := by decide
/-- V-R11 of 2.2: pointer 0xFF takes its high byte from 0x0000. -/
theorem test_lda_indirect_x_wraps :
    regs (program 0x8000 [0xA1, 0xFF] (writeByte 0x1234 0x42 (withPointer 0xFF 0x34 0x12 fresh))) =
    some (0x42, 0x00, 0x00, 0x00, 0x8002) := by decide
/-- V-L12. -/
theorem test_lda_indirect_y :
    regs (program 0x8000 [0xB1, 0x86] ((writeByte 0x4038 0x01 (withPointer 0x86 0x28 0x40 fresh)).setY 0x10)) =
    some (0x01, 0x00, 0x10, 0x00, 0x8002) := by decide
/-- V-R14 of 2.2 (decision D3): not 0x0900. -/
theorem test_lda_indirect_y_wraps :
    regs (program 0x8000 [0xB1, 0xFF]
      (writeByte 0x0300 0x80 (writeByte 0x0900 0x11 (writeByte 0x0100 0x09 (withPointer 0xFF 0x00 0x03 fresh))))) =
    some (0x80, 0x00, 0x00, 0x80, 0x8002) := by decide

/-! ## STA (95_test_vectors.md 2.3) -/

/-- V-S1: no flag changes. -/
theorem test_sta_zero_page : regs (program 0x8000 [0x85, 0x10] ((fresh.setA 0x42).setP 0xFF)) =
    some (0x42, 0x00, 0x00, 0xFF, 0x8002) := by decide
theorem test_sta_zero_page_cell : cellAfter 0x0010 (program 0x8000 [0x85, 0x10] (fresh.setA 0x42)) = some 0x42 := by decide
/-- V-S2: never 0x0100. -/
theorem test_sta_zero_page_x :
    cellAfter 0x0000 (program 0x8000 [0x95, 0xFF] ((fresh.setA 0x99).setX 0x01)) = some 0x99 := by decide
theorem test_sta_zero_page_x_not_0100 :
    cellAfter 0x0100 (program 0x8000 [0x95, 0xFF] ((fresh.setA 0x99).setX 0x01)) = some 0x00 := by decide
/-- V-S3. -/
theorem test_sta_absolute : cellAfter 0x0200 (program 0x8000 [0x8D, 0x00, 0x02] (fresh.setA 0x7F)) = some 0x7F := by decide
/-- V-S5. -/
theorem test_sta_absolute_x :
    cellAfter 0x0000 (program 0x8000 [0x9D, 0xFF, 0xFF] ((fresh.setA 0x11).setX 0x01)) = some 0x11 := by decide
/-- V-S6. -/
theorem test_sta_absolute_y :
    cellAfter 0x1310 (program 0x8000 [0x99, 0xF0, 0x12] ((fresh.setA 0x22).setY 0x20)) = some 0x22 := by decide
/-- V-S7. -/
theorem test_sta_indirect_x :
    cellAfter 0x2074 (program 0x8000 [0x81, 0x20] (((withPointer 0x24 0x74 0x20 fresh).setA 0x33).setX 0x04)) =
    some 0x33 := by decide
/-- V-S8. -/
theorem test_sta_indirect_y :
    cellAfter 0x4038 (program 0x8000 [0x91, 0x86] (((withPointer 0x86 0x28 0x40 fresh).setA 0x44).setY 0x10)) =
    some 0x44 := by decide

/-! ## TAX, INX, BRK, decode errors (95_test_vectors.md 2.4, 2.5) -/

/-- V-T1. -/
theorem test_tax_zero : regs (program 0x8000 [0xAA] (fresh.setX 0x55)) = some (0x00, 0x00, 0x00, 0x02, 0x8001) := by decide
/-- V-T2. -/
theorem test_tax_negative : regs (program 0x8000 [0xAA] (fresh.setA 0x80)) = some (0x80, 0x80, 0x00, 0x80, 0x8001) := by decide
/-- V-I1: bit 0 is kept, no carry is written. -/
theorem test_inx_wraps : regs (program 0x8000 [0xE8] ((fresh.setX 0xFF).setP 0x01)) =
    some (0x00, 0x00, 0x00, 0x03, 0x8001) := by decide
/-- V-I3, and PC wraps as in V-W1. -/
theorem test_inx_negative : regs (program 0xFFFF [0xE8] (fresh.setX 0x7F)) =
    some (0x00, 0x80, 0x00, 0x80, 0x0000) := by decide
/-- V-B1. -/
theorem test_brk : regs (program 0x8002 [0x00] (fresh.setP 0x5A)) = some (0x00, 0x00, 0x00, 0x5A, 0x8003) := by decide
/-- V-B2: `run` right after `construct`. -/
theorem test_brk_after_construct : statusAfter (startRun construct) = some (.halted .normalBreak) := by decide
/-- V-D1. -/
theorem test_decode_error : statusAfter (program 0x8000 [0x02] fresh) = some (.halted (.decodeError 0x02 0x8000)) := by decide
/-- V-D4: PC wraps. -/
theorem test_decode_error_wraps : regs (program 0xFFFF [0xFF] fresh) = some (0x00, 0x00, 0x00, 0x00, 0x0000) := by decide
/-- V-R16: the resolver called with mode None. -/
theorem test_resolve_none : resolve .implied fresh = .error (.addressingError .implied) := rfl
/-- V-R5: ZeroPage,Y, a mode no row uses. -/
theorem test_resolve_zero_page_y :
    resolve .zeroPageY (pcIncrement (program 0x8000 [0x00, 0xFF] (fresh.setY 0x02))) = .ok 0x0001 := by rfl

/-! ## Flags, memory bus, host operations (95_test_vectors.md 2.1, 2.4, 2.6) -/

/-- V-F1, V-F4, V-F6. -/
theorem test_updateZN : updateZN 0x00 0x7D = 0x7F ∧ updateZN 0x80 0x7D = 0xFD ∧ updateZN 0x05 0x82 = 0x00 := by decide
/-- V-M2. -/
theorem test_write16_wraps : readByte 0xFFFF (writeWord 0xFFFF 0xBEEF fresh) = 0xEF ∧
    readByte 0x0000 (writeWord 0xFFFF 0xBEEF fresh) = 0xBE := by decide
/-- V-M3, V-M4: a plain word read does not wrap in the zero page, ZpRead16 does. -/
theorem test_word_reads :
    let s := writeByte 0x0000 0x56 (writeByte 0x0100 0x12 (writeByte 0x00FF 0x34 fresh))
    readWord 0x00FF s = 0x1234 ∧ readZeroPageWord 0xFF s = 0x5634 := by decide
/-- Writing 0x00 takes the cell off the list: equal memories are equal data. -/
theorem test_memory_canonical : (writeByte 0x1234 0x00 (writeByte 0x1234 0xEF fresh)).mem = [] := by decide
/-- V-H1. -/
theorem test_load_empty : load [] fresh = .ok (writeByte 0xFFFD 0x80 fresh) := by rfl
/-- V-H4 and V-H5. -/
theorem test_reset_policies :
    let s := writeWord 0xFFFC 0x1234 ((((fresh.setA 0x01).setX 0x02).setY 0x03).setP 0xFF)
    ((resetOp false s).a, (resetOp false s).x, (resetOp false s).y, (resetOp false s).p, (resetOp false s).pc) =
      (0x00, 0x00, 0x03, 0x00, 0x1234) ∧ (resetOp true s).y = 0x00 ∧ (defaultReset s).y = 0x03 := by decide
/-- R60: LDA Indirect,Y reads opcode, operand, pointer low, pointer high, data. -/
theorem test_bus_order :
    busAccesses opcodeTable (program 0x8000 [0xB1, 0x86] ((withPointer 0x86 0x28 0x40 fresh).setY 0x10)) =
    [.read 0x8000, .read 0x8001, .read 0x0086, .read 0x0087, .read 0x4038] := by decide
/-- R170, D21. -/
theorem test_outcome_codes : RunOutcome.normalBreak.code = 0 ∧ (RunOutcome.decodeError 0x02 0x8000).code = 1 ∧
    (RunOutcome.addressingError .implied).code = 2 := by decide

/-! ## Witnesses: for every statement with hypotheses, a state and operands that meet them -/

/-- For statements about bytes that decode; with a rest, and at the boundary of a table row's length. -/
theorem witness_decoded_bytes : decode [0xA9, 0xFF, 0x77] = .ok (.ldaImmediate 0xFF, [0x77]) := rfl
theorem witness_row_and_enough_bytes :
    opcodeTable.descriptor 0x91 = some ⟨0x91, .sta, .indirectY, 2, 6⟩ ∧ 2 ≤ [(0x20 : Byte)].length + 1 := by decide

/-- Two states that differ, and agree on what the resolver reads. -/
theorem witness_resolver_reads :
    let s := program 0x8000 [0x20] ((withPointer 0x24 0x74 0x20 fresh).setX 0x04)
    let u := writeByte 0x5000 0x99 (s.setA 0x77)
    u ≠ s ∧ u.pc = s.pc ∧ u.x = s.x ∧ u.y = s.y ∧ ∀ addr ∈ resolverReads .indirectX s, readByte addr u = readByte addr s := by
  refine ⟨fun h => absurd (congrArg State.a h) (by decide), rfl, rfl, rfl, fun addr h => ?_⟩
  refine (readByte_writeByte _ _ _ _).trans (if_neg ?_)
  rintro rfl
  exact absurd h (by decide)

/-- The ranges of the flag statement at their boundaries: 0x00, 0x01, 0x7F, 0x80. -/
theorem witness_flag_ranges : (0x00 : Byte).toNat = 0 ∧ 1 ≤ (0x01 : Byte).toNat ∧ (0x01 : Byte).toNat ≤ 0x7F ∧
    1 ≤ (0x7F : Byte).toNat ∧ (0x7F : Byte).toNat ≤ 0x7F ∧ 0x80 ≤ (0x80 : Byte).toNat := by decide

/-- A run in progress at bytes that decode to a well-formed instruction. -/
theorem witness_step_decoded :
    let s := program 0x8000 [0xBD, 0xF0, 0x12] fresh
    s.runStatus = .running ∧ decode (fetchBytes s) = .ok (.ldaAbsoluteX 0x12F0, []) ∧
    (Instr.ldaAbsoluteX 0x12F0).wellFormed opcodeTable = true := ⟨rfl, rfl, rfl⟩

/-- A program of at most three bytes stands where it was put, so `RunningAt` holds of it. -/
theorem runningAt_one (op : Byte) (s : State) : RunningAt [op] (program 0x8000 [op] s) :=
  ⟨rfl, fun k h => by
    have : k = 0 := by simpa using h
    subst this
    exact (readByte_writeByte _ _ _ _).trans (if_pos rfl)⟩

theorem runningAt_two (op b : Byte) (s : State) : RunningAt [op, b] (program 0x8000 [op, b] s) :=
  ⟨rfl, fun k h => by
    have hk : k = 0 ∨ k = 1 := by simp only [List.length_cons, List.length_nil] at h; omega
    rcases hk with rfl | rfl
    · exact ((readByte_writeByte _ _ _ _).trans (if_neg (show ¬(0x8000 : Word) + 0 = 0x8000 + 1 by decide))).trans
        ((readByte_writeByte _ _ _ _).trans (if_pos rfl))
    · exact (readByte_writeByte _ _ _ _).trans (if_pos rfl)⟩

theorem runningAt_three (op lo hi : Byte) (s : State) : RunningAt [op, lo, hi] (program 0x8000 [op, lo, hi] s) :=
  ⟨rfl, fun k h => by
    have hk : k = 0 ∨ k = 1 ∨ k = 2 := by simp only [List.length_cons, List.length_nil] at h; omega
    rcases hk with rfl | rfl | rfl
    · exact ((readByte_writeByte _ _ _ _).trans (if_neg (show ¬(0x8000 : Word) + 0 = 0x8000 + 1 + 1 by decide))).trans
        (((readByte_writeByte _ _ _ _).trans (if_neg (show ¬(0x8000 : Word) + 0 = 0x8000 + 1 by decide))).trans
          ((readByte_writeByte _ _ _ _).trans (if_pos rfl)))
    · exact ((readByte_writeByte _ _ _ _).trans (if_neg (show ¬(0x8000 : Word) + 1 = 0x8000 + 1 + 1 by decide))).trans
        ((readByte_writeByte _ _ _ _).trans (if_pos rfl))
    · exact (readByte_writeByte _ _ _ _).trans (if_pos rfl)⟩

/-- For the whole-step statements of each opcode, at boundary operands. -/
theorem witness_step_lda_immediate : RunningAt [0xA9, 0x00] (program 0x8000 [0xA9, 0x00] fresh) := runningAt_two _ _ _
theorem witness_step_lda_zero_page : RunningAt [0xA5, 0xFF] (program 0x8000 [0xA5, 0xFF] fresh) := runningAt_two _ _ _
theorem witness_step_tax : RunningAt [0xAA] (program 0x8000 [0xAA] fresh) := runningAt_one _ _
theorem witness_step_inx : RunningAt [0xE8] (program 0x8000 [0xE8] (fresh.setX 0xFF)) := runningAt_one _ _
theorem witness_step_brk : RunningAt [0x00] (program 0x8000 [0x00] fresh) := runningAt_one _ _
theorem witness_step_encoding : RunningAt (encode (.staAbsolute 0x0200)) (program 0x8000 [0x8D, 0x00, 0x02] fresh) :=
  runningAt_three _ _ _ _
theorem witness_step_lda_remaining :
    RunningAt [0xB5, 0xFF] (program 0x8000 [0xB5, 0xFF] (fresh.setX 0x01)) ∧
    RunningAt [0xAD, 0xFF, 0xFF] (program 0x8000 [0xAD, 0xFF, 0xFF] fresh) ∧
    RunningAt [0xBD, 0xFF, 0xFF] (program 0x8000 [0xBD, 0xFF, 0xFF] (fresh.setX 0x01)) ∧
    RunningAt [0xB9, 0xFF, 0xFF] (program 0x8000 [0xB9, 0xFF, 0xFF] (fresh.setY 0x02)) ∧
    RunningAt [0xA1, 0xFF] (program 0x8000 [0xA1, 0xFF] (fresh.setX 0x00)) ∧
    RunningAt [0xB1, 0xFF] (program 0x8000 [0xB1, 0xFF] (fresh.setY 0xFF)) :=
  ⟨runningAt_two _ _ _, runningAt_three _ _ _ _, runningAt_three _ _ _ _, runningAt_three _ _ _ _,
   runningAt_two _ _ _, runningAt_two _ _ _⟩
theorem witness_step_sta :
    RunningAt [0x85, 0x00] (program 0x8000 [0x85, 0x00] fresh) ∧
    RunningAt [0x95, 0xFF] (program 0x8000 [0x95, 0xFF] (fresh.setX 0x01)) ∧
    RunningAt [0x8D, 0xFC, 0xFF] (program 0x8000 [0x8D, 0xFC, 0xFF] fresh) ∧
    RunningAt [0x9D, 0xFF, 0xFF] (program 0x8000 [0x9D, 0xFF, 0xFF] (fresh.setX 0x01)) ∧
    RunningAt [0x99, 0xF0, 0x12] (program 0x8000 [0x99, 0xF0, 0x12] (fresh.setY 0x20)) ∧
    RunningAt [0x81, 0x20] (program 0x8000 [0x81, 0x20] (fresh.setX 0x04)) ∧
    RunningAt [0x91, 0xFF] (program 0x8000 [0x91, 0xFF] (fresh.setY 0x01)) :=
  ⟨runningAt_two _ _ _, runningAt_two _ _ _, runningAt_three _ _ _ _, runningAt_three _ _ _ _, runningAt_three _ _ _ _,
   runningAt_two _ _ _, runningAt_two _ _ _⟩
theorem witness_store_then_fetch :
    let s := program 0x8000 [0x8D, 0x03, 0x80] (fresh.setA 0xE8)
    RunningAt [0x8D, lowByte (s.pc + 3), highByte (s.pc + 3)] s := runningAt_three _ _ _ _

/-- An LDA row and an STA row at the fetched opcode, with a run in progress. -/
theorem witness_lda_and_sta_rows :
    let s := program 0x8000 [0xB1, 0x86] fresh
    let u := program 0x8000 [0x9D, 0xFF, 0xFF] fresh
    s.runStatus = .running ∧ opcodeTable.descriptor (fetchOpcode s) = some ⟨0xB1, .lda, .indirectY, 2, 5⟩ ∧
    u.runStatus = .running ∧ opcodeTable.descriptor (fetchOpcode u) = some ⟨0x9D, .sta, .absoluteX, 3, 5⟩ := by decide

/-- A byte without a row, with a run in progress. -/
theorem witness_decode_error :
    let s := program 0x8000 [0x02] fresh
    s.runStatus = .running ∧ opcodeTable.descriptor (readByte s.pc s) = none := by decide

/-- A state in which no run is in progress. -/
theorem witness_not_running : State.reset.runStatus ≠ .running := by decide

/-- A step of a run that goes on, from a state with every register set. -/
theorem witness_step_continues :
    let s := program 0x8000 [0x8D, 0x00, 0x02] ((((fresh.setA 0x7F).setX 0x01).setY 0x02).setP 0x7D)
    s.Inv ∧ s.runStatus = .running ∧ ∃ t, step s = .next t ∧ t.runStatus = .running :=
  ⟨⟨rfl, trivial⟩, rfl, _, rfl, rfl⟩

/-- A step that ends a run, by BRK and by a byte without a row. -/
theorem witness_step_ends :
    (∃ t, step (program 0x8000 [0x00] fresh) = .next t ∧ t.runStatus ≠ .running) ∧
    (∃ t, step (program 0x8000 [0x02] fresh) = .next t ∧ t.runStatus ≠ .running) :=
  ⟨⟨_, rfl, by decide⟩, ⟨_, rfl, by decide⟩⟩

/-- A step that changes A, X and P, and one that changes memory. -/
theorem witness_step_writes :
    (∃ t, step (program 0x8000 [0xA9, 0x05] (fresh.setP 0x02)) = .next t ∧ t.a ≠ 0x00 ∧ t.p ≠ 0x02) ∧
    (∃ t, step (program 0x8000 [0xE8] fresh) = .next t ∧ t.x ≠ 0x00) ∧
    (∃ t, step (program 0x8000 [0xAA] (fresh.setA 0x05)) = .next t ∧ t.x ≠ 0x00) :=
  ⟨⟨_, rfl, by decide, by decide⟩, ⟨_, rfl, by decide⟩, ⟨_, rfl, by decide⟩⟩

/-- A bus trace with a write in it, split at the write. -/
theorem witness_bus_write :
    let s := program 0x8000 [0x85, 0x10] (fresh.setA 0x42)
    s.runStatus = .running ∧ (∃ t, step s = .next t) ∧
    busAccesses opcodeTable s = [.read 0x8000, .read 0x8001] ++ .write 0x0010 0x42 :: [] ∧
    (BusAccess.write 0x0010 0x42).isWrite = true := ⟨rfl, ⟨_, rfl⟩, rfl, rfl⟩

/-- A well-formed table and a run in progress. -/
theorem witness_well_formed_table : opcodeTable.wellFormed = true ∧ (program 0x8000 [0xA9, 0x05] fresh).runStatus = .running := by
  decide

/-- A table with a broken row at the fetched opcode, for LDA and for STA. -/
theorem witness_broken_table :
    OpcodeTable.descriptor [⟨0xA9, .lda, .implied, 1, 2⟩] (fetchOpcode (program 0x8000 [0xA9] fresh)) =
      some ⟨0xA9, .lda, .implied, 1, 2⟩ ∧
    OpcodeTable.descriptor [⟨0x85, .sta, .implied, 1, 3⟩] (fetchOpcode (program 0x8000 [0x85] fresh)) =
      some ⟨0x85, .sta, .implied, 1, 3⟩ := by decide

/-- An attested opcode, and one that the smaller table drops. -/
theorem witness_attested :
    (attestedTable.descriptor (fetchOpcode (program 0x8000 [0xA9] fresh))).isSome = true ∧
    (attestedTable.descriptor (fetchOpcode (program 0x8000 [0x8D] fresh))).isSome = false := by decide

/-- A run over the five attested rows that returns `Break`. -/
theorem witness_attested_run_returns_break :
    RunReturnsWith attestedTable construct .normalBreak { construct with pc := 0x0001, runStatus := .halted .normalBreak } :=
  ⟨1, rfl, rfl⟩

/-- `load_and_run` over the five attested rows: the one-byte program BRK (V-B1, at 0x8000). -/
theorem test_load_and_run_attested :
    ∃ t, LoadAndRunReturnsWith attestedTable false [0x00] fresh .normalBreak t ∧ t.pc = 0x8001 :=
  ⟨_, ⟨_, rfl, 1, rfl, rfl⟩, rfl⟩

/-- Host operations that are accepted, on canonical memory. -/
theorem witness_host_operations :
    fresh.memoryCanonical ∧ (∃ t, hostApply false (.load [0xA9, 0x05, 0x00]) fresh = .ok t) ∧
    (∃ t, hostApply true (.loadAndRun [0x00]) fresh = .ok t) ∧ (∃ t, hostApply true (.writeByte 0xFFFF 0x00) fresh = .ok t) :=
  ⟨rfl, ⟨_, rfl⟩, ⟨_, rfl⟩, ⟨_, rfl⟩⟩

/-- A run that returns `Break`, and one that returns `DecodeError`. -/
theorem witness_run_returns_break :
    RunReturns construct .normalBreak { construct with pc := 0x0001, runStatus := .halted .normalBreak } :=
  ⟨1, rfl, rfl⟩
theorem witness_run_returns_decode_error :
    RunReturns (writeByte 0x0000 0x02 construct) (.decodeError 0x02 0x0000)
      { writeByte 0x0000 0x02 construct with pc := 0x0001, runStatus := .halted (.decodeError 0x02 0x0000) } :=
  ⟨1, rfl, rfl⟩

/-- The memory of a list of cells with consecutive addresses and one value. -/
theorem cell_filled (lo n a : Nat) (v : Byte) :
    Memory.cell ((List.range' lo n).map (fun k => (k, v))) a = if lo ≤ a ∧ a < lo + n then v else Config.unlistedByte := by
  induction n generalizing lo with
  | zero => simp [Memory.cell]
  | succ n ih =>
    simp only [List.range'_succ, List.map_cons, Memory.cell, ih]
    split_ifs <;> first | rfl | omega

/-- Memory with INX in all 65536 cells. -/
theorem witness_all_inx :
    let s := construct.setMem ((List.range' 0 65536).map (fun k => (k, (0xE8 : Byte))))
    ∀ addr : Word, readByte addr s = 0xE8 := by
  intro s addr
  refine (cell_filled 0 65536 addr.toNat 0xE8).trans (if_pos ?_)
  have := addr.isLt
  omega

/-- Images: one that fits, the largest with positions on both sides of the vector, one that is too long. -/
theorem witness_image_fits : (List.replicate 0x8000 (0xEA : Byte)).length ≤ 0x8000 ∧
    0x7FFB < (List.replicate 0x8000 (0xEA : Byte)).length ∧ 0x7FFE < (List.replicate 0x8000 (0xEA : Byte)).length := by
  simp only [List.length_replicate]
  omega
theorem witness_address_outside_image :
    (0x7FFF : Word).toNat < 0x8000 ∧ 0x8000 + [(0x00 : Byte)].length ≤ (0x8001 : Word).toNat ∧
    (0x8001 : Word) ≠ 0xFFFC ∧ (0x8001 : Word) ≠ 0xFFFD := by decide
theorem witness_image_too_long : 0x8000 < (List.replicate 0x8001 (0x00 : Byte)).length := by
  simp only [List.length_replicate]
  omega
theorem witness_load_and_run : (List.replicate 0x7FFF (0x00 : Byte)).length < 0x8000 := by
  simp only [List.length_replicate]
  omega

end Sys2Proof.Tests
end

section
/-! What EXECUTE can do, said once per handler, and from it what a step can do to the status register P. -/

namespace Sys2Proof.Machine

/-- Everything EXECUTE can be (R89): one of the five handlers, then the operand advance of the mode unless the run ends. -/
theorem exec_cases (i : Instr) (s : State) :
    (i.mnemonic = .lda ∧ ∃ v, exec i s = complete i.mode (loadA v s)) ∨
    (i.mnemonic = .sta ∧ ∃ ea, exec i s = storeTo i.mode ea s) ∨
    (i.mnemonic = .tax ∧ exec i s = complete i.mode (transferAX s)) ∨
    (i.mnemonic = .inx ∧ exec i s = complete i.mode (incrementX s)) ∨
    (i.mnemonic = .brk ∧ exec i s = haltBreak s) := by
  cases i with
  | ldaImmediate _ | ldaZeroPage _ | ldaZeroPageX _ | ldaAbsolute _ | ldaAbsoluteX _ | ldaAbsoluteY _ | ldaIndirectX _
  | ldaIndirectY _ => exact .inl ⟨rfl, _, rfl⟩
  | staZeroPage _ | staZeroPageX _ | staAbsolute _ | staAbsoluteX _ | staAbsoluteY _ | staIndirectX _
  | staIndirectY _ => exact .inr (.inl ⟨rfl, _, rfl⟩)
  | tax => exact .inr (.inr (.inl ⟨rfl, rfl⟩))
  | inx => exact .inr (.inr (.inr (.inl ⟨rfl, rfl⟩)))
  | brk => exact .inr (.inr (.inr (.inr ⟨rfl, rfl⟩)))

/-- EXECUTE writes P by UpdateZN of one byte or not at all. -/
theorem exec_next_p {i : Instr} {s t : State} (h : exec i s = .next t) : t.p = s.p ∨ ∃ v, t.p = updateZN v s.p := by
  obtain ⟨-, v, hx⟩ | ⟨-, ea, hx⟩ | ⟨-, hx⟩ | ⟨-, hx⟩ | ⟨-, hx⟩ := exec_cases i s <;> rw [hx] at h
  · obtain rfl := complete_next h
    exact .inr ⟨v, rfl⟩
  · obtain rfl := storeTo_next h
    exact .inl rfl
  · obtain rfl := complete_next h
    exact .inr ⟨s.a, rfl⟩
  · obtain rfl := complete_next h
    exact .inr ⟨s.x + 1, rfl⟩
  · obtain rfl := haltBreak_next h
    exact .inl rfl

/-- A step writes P by UpdateZN of one byte or not at all. -/
theorem step_next_p {s t : State} (h : step s = .next t) : t.p = s.p ∨ ∃ v, t.p = updateZN v s.p := by
  obtain ⟨-, hs⟩ | ⟨-, i, rest, -, hs⟩ | ⟨-, e, -, hs⟩ := step_cases s <;> rw [hs] at h
  · cases h
    exact .inl rfl
  · have hp := exec_next_p h
    rwa [pcIncrement_p] at hp
  · cases h
    exact .inl rfl

/-- UpdateZN writes bits 1 and 7 only (R150). -/
theorem getLsbD_updateZN_of_ne (v p : Byte) {i : Nat} (hz : i ≠ 1) (hn : i ≠ 7) :
    (updateZN v p).getLsbD i = p.getLsbD i :=
  calc (updateZN v p).getLsbD i
    _ = (putBit p zeroBit (v == 0x00)).getLsbD i := (getLsbD_putBit _ _ _ _ (by decide)).trans (if_neg hn)
    _ = p.getLsbD i := (getLsbD_putBit _ _ _ _ (by decide)).trans (if_neg hz)

/-- Settles O33: P changes only by UpdateZN, which keeps every bit but Z and N. -/
theorem noStepChangesAReservedFlag : Obligations.NoStepChangesAReservedFlag := by
  intro s t h i _ hz hn
  obtain hp | ⟨v, hp⟩ := step_next_p h <;> rw [hp]
  exact getLsbD_updateZN_of_ne v s.p hz hn

end Sys2Proof.Machine
end

section
/-! Cells named by a number: the bridge from `cellAt` to the model's byte reads, and the zero-page word read through it. -/

namespace Sys2Proof.Machine
open Sys2Proof.Claims

/-- A cell named by the number of an address is the byte read there. -/
theorem cellAt_toNat (addr : Word) (s : State) : cellAt addr.toNat s = (readByte addr s).toNat := by
  rw [cellAt, BitVec.ofNat_toNat, BitVec.setWidth_eq]

/-- A cell named by the number of a zero-page address is the byte read at its zero extension. -/
theorem cellAt_toNat_zeroPage (z : Byte) (s : State) : cellAt z.toNat s = (readByte (zext16 z) s).toNat := by
  rw [← toNat_zext16, cellAt_toNat]

/-- Settles O18: the high byte's address is computed in eight bits, so it wraps before it is extended. -/
theorem zeroPageWordReadWrapsInTheZeroPage : Obligations.ZeroPageWordReadWrapsInTheZeroPage := by
  intro z s
  have hnext : (z.toNat + 1) % 256 = (z + 1).toNat := (BitVec.toNat_add z 1).symm
  rw [hnext, cellAt_toNat_zeroPage, cellAt_toNat_zeroPage, readZeroPageWord, toNat_joinBytes]

end Sys2Proof.Machine
end

section
/-! What the engine's EXECUTE can do, said once per handler over any descriptor, and from it that a well-formed table never
raises `AddressingError`. -/

namespace Sys2Proof.Machine

/-- EXECUTE, part 1 (R88), always answers: no address for mode None, the resolver's address for every other mode. -/
theorem resolveIfNeeded_cases (m : Mode) (s : State) :
    ∃ ea, resolveIfNeeded m s = .ok ea ∧
      ((m = .implied ∧ ea = none) ∨ ∃ addr, resolve m s = .ok addr ∧ ea = some addr) := by
  cases m with
  | implied => exact ⟨none, rfl, .inl ⟨rfl, rfl⟩⟩
  | immediate | zeroPage | zeroPageX | zeroPageY | absolute | absoluteX | absoluteY | indirectX | indirectY =>
    exact ⟨_, rfl, .inr ⟨_, rfl, rfl⟩⟩

section execute
variable {d : Descriptor} {s : State} {ea : Option Word}

theorem engineExecute_of_continue {t : State} (hr : resolveIfNeeded d.mode s = .ok ea)
    (hh : handler d.mnemonic ea s = .ok t) : engineExecute d s = pcAdvance d.length t := by
  simp only [engineExecute, hr, hh]

theorem engineExecute_of_outcome {o : RunOutcome} (hr : resolveIfNeeded d.mode s = .ok ea)
    (hh : handler d.mnemonic ea s = .error o) : engineExecute d s = endRun o s := by
  simp only [engineExecute, hr, hh]

end execute

/-- Everything the engine's EXECUTE of a descriptor can be (R88 to R92): a handler and the operand advance of the row's
length, or the end of the run by BRK, or by LDA or STA with mode None (R173, D18). -/
theorem engineExecute_cases (d : Descriptor) (s : State) :
    (d.mnemonic = .lda ∧ ∃ ea, resolve d.mode s = .ok ea ∧
      engineExecute d s = pcAdvance d.length (loadA (readByte ea s) s)) ∨
    (d.mnemonic = .sta ∧ ∃ ea, resolve d.mode s = .ok ea ∧ engineExecute d s = pcAdvance d.length (storeA ea s)) ∨
    (d.mnemonic = .tax ∧ engineExecute d s = pcAdvance d.length (transferAX s)) ∨
    (d.mnemonic = .inx ∧ engineExecute d s = pcAdvance d.length (incrementX s)) ∨
    (d.mnemonic = .brk ∧ engineExecute d s = endRun .normalBreak s) ∨
    (d.mode = .implied ∧ (d.mnemonic = .lda ∨ d.mnemonic = .sta) ∧
      engineExecute d s = endRun (.addressingError .implied) s) := by
  obtain ⟨op, mn, m, n, c⟩ := d
  obtain ⟨ea, hr, hea⟩ := resolveIfNeeded_cases m s
  cases mn with
  | lda =>
    obtain ⟨hm, rfl⟩ | ⟨addr, ha, rfl⟩ := hea
    · exact .inr (.inr (.inr (.inr (.inr ⟨hm, .inl rfl, engineExecute_of_outcome hr rfl⟩))))
    · exact .inl ⟨rfl, addr, ha, engineExecute_of_continue hr rfl⟩
  | sta =>
    obtain ⟨hm, rfl⟩ | ⟨addr, ha, rfl⟩ := hea
    · exact .inr (.inr (.inr (.inr (.inr ⟨hm, .inr rfl, engineExecute_of_outcome hr rfl⟩))))
    · exact .inr (.inl ⟨rfl, addr, ha, engineExecute_of_continue hr rfl⟩)
  | tax => exact .inr (.inr (.inl ⟨rfl, engineExecute_of_continue hr rfl⟩))
  | inx => exact .inr (.inr (.inr (.inl ⟨rfl, engineExecute_of_continue hr rfl⟩)))
  | brk => exact .inr (.inr (.inr (.inr (.inl ⟨rfl, engineExecute_of_outcome hr rfl⟩))))

theorem engineStep_of_row {table : OpcodeTable} {d : Descriptor} {s : State}
    (hd : table.descriptor (fetchOpcode s) = some d) : engineStep table s = engineExecute d (pcIncrement s) := by
  rw [engineStep, hd]

theorem engineStep_of_no_row {table : OpcodeTable} {s : State} (hd : table.descriptor (fetchOpcode s) = none) :
    engineStep table s = raiseDecodeError s := by
  rw [engineStep, hd]

/-- A row that keeps R76's invariant on mode None is no LDA and no STA with mode None. -/
theorem not_lda_or_sta_of_impliedHandler {d : Descriptor} (hd : d.impliedHandler = true) (hm : d.mode = .implied) :
    ¬ (d.mnemonic = .lda ∨ d.mnemonic = .sta) := by
  rintro (h | h) <;> simp [Descriptor.impliedHandler, hm, h] at hd

/-- EXECUTE of a row that keeps R76's invariant on mode None leaves S as it is or ends the run by `Break`. -/
theorem engineExecute_runStatus {d : Descriptor} (hd : d.impliedHandler = true) (s : State) :
    (engineExecute d s).runStatus = s.runStatus ∨ (engineExecute d s).runStatus = .halted .normalBreak := by
  obtain ⟨-, ea, -, h⟩ | ⟨-, ea, -, h⟩ | ⟨-, h⟩ | ⟨-, h⟩ | ⟨-, h⟩ | ⟨hm, hmn, -⟩ := engineExecute_cases d s
  · left; simp [h, loadA_spec]
  · left; simp [h, storeA_spec]
  · left; simp [h, transferAX_spec]
  · left; simp [h, incrementX_spec]
  · right; simp [h, endRun_spec]
  · exact absurd hmn (not_lda_or_sta_of_impliedHandler hd hm)

/-- What a well-formed table's lookup finds keeps R76's invariant on mode None. -/
theorem impliedHandler_of_descriptor {table : OpcodeTable} {op : Byte} {d : Descriptor} (hwf : table.wellFormed = true)
    (hd : table.descriptor op = some d) : d.impliedHandler = true := by
  have hrows := (Bool.and_eq_true_iff.mp hwf).2
  have hrow := List.all_eq_true.mp hrows d (List.mem_of_find?_eq_some hd)
  exact (Bool.and_eq_true_iff.mp hrow).2

/-- Settles O41: the fetched byte has no row, which is a decode error, or a row whose EXECUTE keeps S or ends by `Break`. -/
theorem wellFormedTableNeverRaisesAddressingError : Obligations.WellFormedTableNeverRaisesAddressingError := by
  refine ⟨by decide, fun table s m hwf hrun => ?_⟩
  cases hd : table.descriptor (fetchOpcode s) with
  | none => simp [engineStep_of_no_row hd, raiseDecodeError, endRun_spec]
  | some d =>
    rw [engineStep_of_row hd]
    obtain h | h := engineExecute_runStatus (impliedHandler_of_descriptor hwf hd) (pcIncrement s)
    · simp [h, hrun]
    · simp [h]

end Sys2Proof.Machine
end

section
/-! The resolver's zero-page answers as numbers: the index is added in eight bits, and so are both pointer addresses. -/

namespace Sys2Proof.Machine
open Sys2Proof.Claims

@[simp] theorem toNat_zeroPageAddress (zz : Byte) : (zeroPageAddress zz).toNat = zz.toNat := toNat_zext16 zz

/-- The index is added modulo 256 (R107), so the address never leaves the zero page. -/
theorem toNat_zeroPageIndexed (zz index : Byte) :
    (zeroPageIndexed zz index).toNat = (zz.toNat + index.toNat) % 256 := by
  rw [zeroPageIndexed, toNat_zext16, BitVec.toNat_add]

/-- A pointer counts modulo 256 only. -/
theorem pointerAt_mod (z : Nat) (s : State) : pointerAt (z % 256) s = pointerAt z s := by
  simp only [pointerAt, Nat.mod_mod, Nat.mod_add_mod]

theorem toNat_readZeroPageWord (z : Byte) (s : State) : (readZeroPageWord z s).toNat = pointerAt z.toNat s := by
  rw [zeroPageWordReadWrapsInTheZeroPage, pointerAt, Nat.mod_eq_of_lt z.isLt, Nat.add_comm]

/-- Index and pointer of Indirect,X both wrap in the zero page (R110). -/
theorem toNat_indirectXAddress (zz : Byte) (s : State) :
    (indirectXAddress zz s).toNat = pointerAt (zz.toNat + s.x.toNat) s :=
  calc (indirectXAddress zz s).toNat
    _ = pointerAt (zz + s.x).toNat s := toNat_readZeroPageWord _ s
    _ = pointerAt ((zz.toNat + s.x.toNat) % 256) s := by rw [BitVec.toNat_add]
    _ = pointerAt (zz.toNat + s.x.toNat) s := pointerAt_mod _ s

/-- Settles O12: each mode answers its own address function of the byte at PC, whose number is the rule's formula. -/
theorem resolverImmediateAndZeroPageModes : Obligations.ResolverImmediateAndZeroPageModes := by
  intro s
  rw [cellAt_toNat]
  exact ⟨⟨s.pc, rfl, rfl⟩, ⟨_, rfl, toNat_zeroPageAddress _⟩, ⟨_, rfl, toNat_zeroPageIndexed _ _⟩,
    ⟨_, rfl, toNat_zeroPageIndexed _ _⟩⟩

/-- Settles O14: the resolver answers the Indirect,X address of the byte at PC. -/
theorem resolverIndirectX : Obligations.ResolverIndirectX := by
  intro s
  rw [cellAt_toNat]
  exact ⟨_, rfl, toNat_indirectXAddress _ s⟩

end Sys2Proof.Machine
end

section
/-! A step at a byte that has a row is the engine's EXECUTE of that row (R90), whether or not `Instr` has its constructor:
what the row decodes to carries the very bytes that the resolver reads at PC. -/

namespace Sys2Proof.Machine

/-- EXECUTE of what a row decodes to, from the two bytes at PC, is the engine's EXECUTE of the row. -/
theorem exec_of_decodeRow {d : Descriptor} {i : Instr} {rest : List Byte} {s : State}
    (h : decodeRow d [readByte s.pc s, readByte (s.pc + 1) s] = .ok (i, rest)) :
    exec i s = .next (engineExecute d s) := by
  obtain ⟨op, mn, m, n, c⟩ := d
  obtain ⟨rfl, rfl, hn, hbytes⟩ := decodeRow_ok h
  obtain rfl : n = i.mode.length := hn
  cases i with
  | ldaImmediate zz | ldaZeroPage zz | ldaZeroPageX zz | ldaIndirectX zz | ldaIndirectY zz | staZeroPage zz
  | staZeroPageX zz | staIndirectX zz | staIndirectY zz =>
    cases hbytes
    rfl
  | ldaAbsolute w | ldaAbsoluteX w | ldaAbsoluteY w | staAbsolute w | staAbsoluteX w | staAbsoluteY w =>
    injection hbytes with hlo htail
    injection htail with hhi
    have hw : w = readWord s.pc s := by rw [readWord, hlo, hhi, joinBytes_high_low]
    subst hw
    rfl
  | tax | inx | brk => rfl

/-- During a run, at a byte that has a row, a step over a table executes the row on the fetched state. -/
theorem stepWith_of_row {table : OpcodeTable} {s : State} {d : Descriptor} (hrun : s.runStatus = .running)
    (hd : table.descriptor (fetchOpcode s) = some d) : stepWith table s = .next (engineExecute d (pcIncrement s)) := by
  obtain ⟨hnot, -⟩ | ⟨-, hnone, -⟩ | ⟨-, e, he, ⟨i, rest, hrow, hstep⟩ | hstep⟩ := stepWith_cases table s
  · exact absurd hrun hnot
  · cases hd.symm.trans hnone
  · cases hd.symm.trans he
    have hnext : s.pc + 2 = (pcIncrement s).pc + 1 := (BitVec.add_assoc s.pc 1 1).symm
    rw [hnext] at hrow
    exact hstep.trans (exec_of_decodeRow hrow)
  · cases hd.symm.trans he
    exact hstep

theorem step_of_row {s : State} {d : Descriptor} (hrun : s.runStatus = .running)
    (hd : opcodeTable.descriptor (fetchOpcode s) = some d) : step s = .next (engineExecute d (pcIncrement s)) :=
  stepWith_of_row hrun hd

end Sys2Proof.Machine
end

section
/-! The LOAD and STORE handlers as whole steps: the address a row's mode resolves to, and what the handler and the two
moves of PC leave of the state. -/

namespace Sys2Proof.Machine
open Sys2Proof.Claims

/-! ## EXECUTE of an LDA or STA row -/

/-- An LDA or STA row that keeps R76's invariant on mode None has a mode that resolves. -/
theorem resolve_of_lda_or_sta {d : Descriptor} (hd : d.impliedHandler = true)
    (hmn : d.mnemonic = .lda ∨ d.mnemonic = .sta) (s : State) :
    ∃ ea, resolve d.mode s = .ok ea ∧ resolveIfNeeded d.mode s = .ok (some ea) := by
  obtain ⟨_, hr, ⟨hm, -⟩ | ⟨ea, hea, rfl⟩⟩ := resolveIfNeeded_cases d.mode s
  · exact absurd hmn (not_lda_or_sta_of_impliedHandler hd hm)
  · exact ⟨ea, hea, hr⟩

theorem impliedHandler_of_opcodeTable {op : Byte} {d : Descriptor} (hd : opcodeTable.descriptor op = some d) :
    d.impliedHandler = true :=
  impliedHandler_of_descriptor wellFormedTableNeverRaisesAddressingError.1 hd

/-! ## What the handlers leave of the state -/

/-- UpdateZN gives the flags of the byte: Z for 0, N for bit 7 (R150). -/
theorem flagsOf_of_updateZN {v : Byte} {s t : State} (h : t.p = updateZN v s.p) : FlagsOf v s t := by
  unfold FlagsOf ReservedFlagsKept
  rw [h]
  refine ⟨?_, ?_, fun i _ hz hn => getLsbD_updateZN_of_ne v s.p hz hn⟩
  · have hbit : (updateZN v s.p).getLsbD 1 = (v == 0x00) :=
      (getLsbD_putBit _ 7 1 _ (by decide)).trans (getLsbD_putBit _ 1 1 _ (by decide))
    rw [hbit, beq_iff_eq, ← BitVec.toNat_inj]
    rfl
  · have hbit : (updateZN v s.p).getLsbD 7 = v.getLsbD 7 := getLsbD_putBit _ 7 7 _ (by decide)
    have hmsb : v.getLsbD 7 = v.msb := (BitVec.msb_eq_getLsbD_last v).symm
    rw [hbit, hmsb, BitVec.msb_eq_decide, decide_eq_true_eq]

/-- The fetch's increment and the operand advance together move PC by the length (R86, R91). -/
theorem pcAdvanced_of_fetched {s t : State} (n : Nat) (h : t.pc = s.pc + 1) : PcAdvanced n s (pcAdvance n t) := by
  have hpc : (pcAdvance n t).pc = s.pc + BitVec.ofNat 16 n := by
    rw [pcAdvance, State.setPc_pc, h]
    bv_omega
  rw [PcAdvanced, hpc, BitVec.toNat_add, BitVec.toNat_ofNat, Nat.add_mod_mod]

theorem loaded_loadA (v : Byte) (n : Nat) (s : State) : Loaded v n s (pcAdvance n (loadA v (pcIncrement s))) :=
  ⟨rfl, flagsOf_of_updateZN rfl, pcAdvanced_of_fetched n rfl, rfl, rfl, rfl, fun _ => rfl⟩

theorem stored_storeA (ea : Word) (n : Nat) (s : State) : Stored ea n s (pcAdvance n (storeA ea (pcIncrement s))) :=
  have hcell := readByte_writeByte ea (v := s.a) (s := pcIncrement s)
  ⟨(hcell ea).trans (if_pos rfl), fun addr hne => (hcell addr).trans (if_neg hne), pcAdvanced_of_fetched n rfl,
    rfl, rfl, rfl, rfl, rfl⟩

/-! ## The two handlers -/

/-- Settles O21: the step is the engine's EXECUTE of the row, and an LDA row of the default table has a mode that
resolves. -/
theorem stepOfAnLdaRowLoadsFromTheResolvedAddress : Obligations.StepOfAnLdaRowLoadsFromTheResolvedAddress := by
  intro s d hrun hd hmn
  obtain ⟨ea, hea, hr⟩ := resolve_of_lda_or_sta (impliedHandler_of_opcodeTable hd) (.inl hmn) (pcIncrement s)
  have hexec := engineExecute_of_continue hr (t := loadA (readByte ea s) (pcIncrement s)) (by rw [hmn]; rfl)
  exact ⟨ea, _, hea, step_of_row hrun hd, hexec ▸ loaded_loadA (readByte ea s) d.length s⟩

/-- Settles O22: the step is the engine's EXECUTE of the row, and an STA row of the default table has a mode that
resolves. -/
theorem stepOfAnStaRowStoresAtTheResolvedAddress : Obligations.StepOfAnStaRowStoresAtTheResolvedAddress := by
  intro s d hrun hd hmn
  obtain ⟨ea, hea, hr⟩ := resolve_of_lda_or_sta (impliedHandler_of_opcodeTable hd) (.inr hmn) (pcIncrement s)
  have hexec := engineExecute_of_continue hr (t := storeA ea (pcIncrement s)) (by rw [hmn]; rfl)
  exact ⟨ea, _, hea, step_of_row hrun hd, hexec ▸ stored_storeA ea d.length s⟩

/-! ## LDA Immediate and LDA ZeroPage -/

theorem fetchOpcode_of_runningAt {op : Byte} {bytes : List Byte} {s : State} (h : RunningAt (op :: bytes) s) :
    fetchOpcode s = op := by
  have hop := h.2 0 (Nat.zero_lt_succ _)
  rwa [BitVec.add_zero] at hop

theorem operand_of_runningAt {op b : Byte} {bytes : List Byte} {s : State} (h : RunningAt (op :: b :: bytes) s) :
    readByte (s.pc + 1) s = b :=
  h.2 1 (Nat.succ_lt_succ (Nat.zero_lt_succ _))

/-- With the byte of an LDA row at PC, one step loads from the address the row's mode resolves to. -/
theorem step_of_lda_at {op : Byte} {bytes : List Byte} {d : Descriptor} {s : State} (h : RunningAt (op :: bytes) s)
    (hd : opcodeTable.descriptor op = some d) (hmn : d.mnemonic = .lda) :
    ∃ ea t, resolve d.mode (pcIncrement s) = .ok ea ∧ step s = .next t ∧ Loaded (readByte ea s) d.length s t :=
  stepOfAnLdaRowLoadsFromTheResolvedAddress s d h.1 ((congrArg _ (fetchOpcode_of_runningAt h)).trans hd) hmn

/-- Settles O23: mode Immediate resolves to the operand byte's own address (R105). -/
theorem stepLdaImmediate : Obligations.StepLdaImmediate := by
  intro s nn h
  obtain ⟨ea, t, hea, hstep, hload⟩ := step_of_lda_at h rfl rfl
  cases hea
  exact ⟨t, hstep, operand_of_runningAt h ▸ hload⟩

/-- Settles O24: mode ZeroPage resolves to the operand byte as an address (R106). -/
theorem stepLdaZeroPage : Obligations.StepLdaZeroPage := by
  intro s zz h
  obtain ⟨ea, t, hea, hstep, hload⟩ := step_of_lda_at h rfl rfl
  cases hea
  rw [readByte_pcIncrement, pcIncrement_pc, operand_of_runningAt h] at hload
  rw [BitVec.ofNat_toNat]
  exact ⟨t, hstep, hload⟩

end Sys2Proof.Machine
end

section
/-! The Flag Update Logic over the three ranges of a byte, and the handlers that write X, TAX and INX, as whole steps. -/

namespace Sys2Proof.Machine
open Sys2Proof.Claims

/-! ## UpdateZN -/

/-- Bit 7 of a byte tells whether it stands in the upper half of its range. -/
theorem getLsbD_seven_iff (v : Byte) : v.getLsbD 7 = true ↔ 128 ≤ v.toNat := by
  have hmsb : v.getLsbD 7 = v.msb := (BitVec.msb_eq_getLsbD_last v).symm
  rw [hmsb, BitVec.msb_eq_decide, decide_eq_true_eq]

/-- UpdateZN as the claims read flags: they read P only, so the reset state carries it as well as any other. -/
theorem flagsOf_updateZN (v p : Byte) :
    FlagsOf v (State.reset.setP p) (State.reset.setP (updateZN v p)) :=
  flagsOf_of_updateZN rfl

theorem flagZ_updateZN_iff (v p : Byte) : flagZ (updateZN v p) = true ↔ v.toNat = 0 :=
  (flagsOf_updateZN v p).1

theorem flagN_updateZN_iff (v p : Byte) : flagN (updateZN v p) = true ↔ 128 ≤ v.toNat :=
  (flagsOf_updateZN v p).2.1

/-- Settles O17: Z says that the byte is 0 and N that it is at least 128, and each range decides both. -/
theorem flagUpdateSetsZeroAndNegativeOnly : Obligations.FlagUpdateSetsZeroAndNegativeOnly := by
  intro v p
  have hz := flagZ_updateZN_iff v p
  have hn := flagN_updateZN_iff v p
  have hzOff (hne : v.toNat ≠ 0) : flagZ (updateZN v p) = false := Bool.eq_false_iff.mpr (hz.not.mpr hne)
  have hnOff (hlow : ¬ 128 ≤ v.toNat) : flagN (updateZN v p) = false := Bool.eq_false_iff.mpr (hn.not.mpr hlow)
  refine ⟨hz, hn.trans (getLsbD_seven_iff v).symm, fun hzero => ?_, fun hpos hlow => ?_, fun hhalf => ?_,
    fun i _ hiz hin => getLsbD_updateZN_of_ne v p hiz hin⟩
  · exact ⟨hz.mpr hzero, hnOff (by omega)⟩
  · exact ⟨hzOff (by omega), hnOff (by omega)⟩
  · exact ⟨hzOff (by omega), hn.mpr hhalf⟩

/-! ## TAX and INX -/

/-- With the byte of a row at PC, one step executes the row on the fetched state. -/
theorem step_of_row_at {op : Byte} {bytes : List Byte} {d : Descriptor} {s : State} (h : RunningAt (op :: bytes) s)
    (hd : opcodeTable.descriptor op = some d) : step s = .next (engineExecute d (pcIncrement s)) :=
  step_of_row h.1 ((congrArg _ (fetchOpcode_of_runningAt h)).trans hd)

/-- X and the flags of one byte, written between the fetch's increment and the operand advance: what TAX and INX share. -/
theorem indexXSet_setX_setP (v : Byte) (n : Nat) (s : State) :
    IndexXSet v n s (pcAdvance n (((pcIncrement s).setX v).setP (updateZN v s.p))) :=
  ⟨rfl, flagsOf_of_updateZN rfl, pcAdvanced_of_fetched n rfl, rfl, rfl, rfl, fun _ => rfl⟩

theorem indexXSet_transferAX (n : Nat) (s : State) :
    IndexXSet s.a n s (pcAdvance n (transferAX (pcIncrement s))) :=
  indexXSet_setX_setP s.a n s

theorem indexXSet_incrementX (n : Nat) (s : State) :
    IndexXSet (s.x + 1) n s (pcAdvance n (incrementX (pcIncrement s))) :=
  indexXSet_setX_setP (s.x + 1) n s

/-- Settles O25: the row of AA is the TRANSFER handler with one byte. -/
theorem stepTax : Obligations.StepTax := by
  intro s h
  have hexec := engineExecute_of_continue (d := ⟨0xAA, .tax, .implied, 1, 2⟩) (s := pcIncrement s) rfl rfl
  exact ⟨_, (step_of_row_at h rfl).trans (congrArg _ hexec), indexXSet_transferAX 1 s⟩

/-- Settles O26: the row of E8 is the INCREMENT handler with one byte, and X counts in eight bits. -/
theorem stepInx : Obligations.StepInx := by
  intro s h
  have hexec := engineExecute_of_continue (d := ⟨0xE8, .inx, .implied, 1, 2⟩) (s := pcIncrement s) rfl rfl
  exact ⟨_, (step_of_row_at h rfl).trans (congrArg _ hexec), BitVec.toNat_add s.x 1, indexXSet_incrementX 1 s⟩

end Sys2Proof.Machine
end

section
/-! The host's `construct` and `reset`: a word read as two numbered cells, and the state each operation leaves. -/

namespace Sys2Proof.Machine
open Sys2Proof.Claims

/-- A word read is little-endian, and the number of its high byte's address wraps at 2^16 (R47, R49, D2). -/
theorem toNat_readWord (addr : Word) (s : State) :
    (readWord addr s).toNat = 256 * cellAt ((addr.toNat + 1) % 65536) s + cellAt addr.toNat s := by
  have hnext : (addr.toNat + 1) % 65536 = (addr + 1).toNat := (BitVec.toNat_add addr 1).symm
  rw [hnext, cellAt_toNat, cellAt_toNat, readWord, toNat_joinBytes]

/-- Settles O54: PC takes the word at the vector, whose two addresses do not wrap, and memory is the same list. -/
theorem resetZeroesAXPAndTakesPcFromTheVector : Obligations.ResetZeroesAXPAndTakesPcFromTheVector := by
  intro c s
  obtain ⟨ha, hx, hp, hy, hpc, hmem, hstatus⟩ := resetOp_spec c s
  have hvector : (resetOp c s).pc.toNat = 256 * cellAt 0xFFFD s + cellAt 0xFFFC s :=
    (congrArg BitVec.toNat hpc).trans (toNat_readWord Config.resetVector s)
  exact ⟨_, rfl, ha, hx, hp, hy, hvector, hstatus, fun addr => readByte_congr addr hmem⟩

/-- Settles O53: `construct` lists no cell, and an unlisted address reads 0x00. -/
theorem constructZeroesRegistersAndMemory : Obligations.ConstructZeroesRegistersAndMemory :=
  have hcell (addr : Word) : readByte addr construct = Config.unlistedByte := rfl
  ⟨rfl, rfl, rfl, rfl, rfl, rfl, hcell⟩

end Sys2Proof.Machine
end

section
/-! The decoder and the encoder over the default table: a row's lookup, the bytes a row decodes from, and why bytes are
rejected. -/

namespace Sys2Proof

/-! ## Rows of a table -/

theorem mem_of_descriptor {t : OpcodeTable} {op : Byte} {d : Descriptor} (h : t.descriptor op = some d) : d ∈ t :=
  List.mem_of_find?_eq_some h

theorem opcode_of_descriptor {t : OpcodeTable} {op : Byte} {d : Descriptor} (h : t.descriptor op = some d) :
    d.opcode = op :=
  beq_iff_eq.mp (List.find?_some (p := fun d : Descriptor => d.opcode == op) h)

theorem descriptor_eq_none_iff {t : OpcodeTable} {op : Byte} : t.descriptor op = none ↔ ∀ d ∈ t, d.opcode ≠ op := by
  simp [OpcodeTable.descriptor]

/-- Every instruction has its row in the default table (R70). -/
theorem row_of_instr (i : Instr) : Laws.TableRow.Statement i := by
  cases i with
  | ldaImmediate _ | ldaZeroPage _ | ldaZeroPageX _ | ldaAbsolute _ | ldaAbsoluteX _ | ldaAbsoluteY _ | ldaIndirectX _
  | ldaIndirectY _ | staZeroPage _ | staZeroPageX _ | staAbsolute _ | staAbsoluteX _ | staAbsoluteY _ | staIndirectX _
  | staIndirectY _ | tax | inx | brk => exact ⟨_, rfl, rfl, rfl, rfl⟩

/-- Every row of the default table has its mode's length (R68). -/
theorem length_of_row : ∀ d ∈ opcodeTable, d.length = d.mode.length := by
  decide

/-- Handler and mode name a row of the default table (R70). -/
theorem row_unique : ∀ d ∈ opcodeTable, ∀ e ∈ opcodeTable, d.mnemonic = e.mnemonic → d.mode = e.mode → d = e := by
  decide

/-- An instruction with a row's handler and mode has the row's opcode byte. -/
theorem opcode_of_row {op : Byte} {d : Descriptor} {i : Instr} (hd : opcodeTable.descriptor op = some d)
    (hmn : i.mnemonic = d.mnemonic) (hm : i.mode = d.mode) : i.opcode = op := by
  obtain ⟨e, he, hemn, hem, -⟩ := row_of_instr i
  obtain rfl : e = d :=
    row_unique e (mem_of_descriptor he) d (mem_of_descriptor hd) (hemn.trans hmn) (hem.trans hm)
  exact (opcode_of_descriptor he).symm.trans (opcode_of_descriptor hd)

/-! ## What a row decodes from -/

/-- The operand bytes and the opcode byte are as many as the mode's length says (R68). -/
theorem length_operandBytes (i : Instr) : i.operandBytes.length + 1 = i.mode.length := by
  cases i <;> rfl

theorem decodeWord_low_high (f : Word → Instr) (w : Word) (rest : List Byte) :
    decodeWord f (lowByte w :: highByte w :: rest) = .ok (f w, rest) := by
  rw [decodeWord, joinBytes_high_low]

/-- A row with an instruction's handler, mode and length decodes the operand bytes to that instruction. -/
theorem decodeRow_operandBytes {d : Descriptor} {i : Instr} (hmn : d.mnemonic = i.mnemonic) (hm : d.mode = i.mode)
    (hl : d.length = i.mode.length) (rest : List Byte) : decodeRow d (i.operandBytes ++ rest) = .ok (i, rest) := by
  obtain ⟨op, mn, m, l, c⟩ := d
  obtain rfl : mn = i.mnemonic := hmn
  obtain rfl : m = i.mode := hm
  obtain rfl : l = i.mode.length := hl
  cases i with
  | ldaImmediate _ | ldaZeroPage _ | ldaZeroPageX _ | ldaIndirectX _ | ldaIndirectY _ | staZeroPage _ | staZeroPageX _
  | staIndirectX _ | staIndirectY _ | tax | inx | brk => rfl
  | ldaAbsolute w | ldaAbsoluteX w | ldaAbsoluteY w | staAbsolute w | staAbsoluteX w | staAbsoluteY w =>
    exact decodeWord_low_high _ w rest

theorem decodeByte_error {f : Byte → Instr} {bytes : List Byte} {e : DecodeReject}
    (h : decodeByte f bytes = .error e) : e = .truncated ∧ bytes.length < 1 := by
  cases bytes with
  | nil => cases h; exact ⟨rfl, Nat.zero_lt_one⟩
  | cons b bs => cases h

theorem decodeWord_error {f : Word → Instr} {bytes : List Byte} {e : DecodeReject}
    (h : decodeWord f bytes = .error e) : e = .truncated ∧ bytes.length < 2 := by
  match bytes, h with
  | [], h | [_], h => cases h; exact ⟨rfl, by simp⟩

/-- A row rejects bytes because `Instr` has no constructor for it, or because they are fewer than its mode's length. -/
theorem decodeRow_error {d : Descriptor} {bytes : List Byte} {e : DecodeReject} (h : decodeRow d bytes = .error e) :
    e = .noConstructor d ∨ (e = .truncated ∧ bytes.length + 1 < d.mode.length) := by
  unfold decodeRow at h
  split at h
  case isFalse => cases h; exact .inl rfl
  case isTrue =>
    unfold assemble at h
    split at h
    case h_4 hm | h_5 hm | h_6 hm | h_11 hm | h_12 hm | h_13 hm =>
      obtain ⟨rfl, hlen⟩ := decodeWord_error h
      exact .inr ⟨rfl, hm ▸ Nat.succ_lt_succ hlen⟩
    case h_16 | h_17 | h_18 => cases h
    case h_19 => cases h; exact .inl rfl
    all_goals
      obtain ⟨rfl, hlen⟩ := decodeByte_error h
      rename_i hm
      exact .inr ⟨rfl, hm ▸ Nat.succ_lt_succ hlen⟩

theorem decode_of_row {op : Byte} {d : Descriptor} (hd : opcodeTable.descriptor op = some d) (rest : List Byte) :
    decode (op :: rest) = decodeRow d rest :=
  decodeWith_of_row hd rest

/-- What decodes starts with the byte of a row, and that row decodes the bytes after it. -/
theorem decode_ok {bytes rest : List Byte} {i : Instr} (h : decode bytes = .ok (i, rest)) :
    ∃ op operand d, bytes = op :: operand ∧ opcodeTable.descriptor op = some d ∧ decodeRow d operand = .ok (i, rest) := by
  cases bytes with
  | nil => cases h
  | cons op operand =>
    cases hd : opcodeTable.descriptor op with
    | none => cases h.symm.trans (decodeWith_of_no_row hd operand)
    | some d => exact ⟨op, operand, d, rfl, hd, (decode_of_row hd operand).symm.trans h⟩

/-- Bytes are rejected for want of a row exactly when their first byte has none (R74). -/
theorem decode_eq_noDescriptor_iff {op : Byte} {bytes : List Byte} :
    decode (op :: bytes) = .error (.noDescriptor op) ↔ opcodeTable.descriptor op = none := by
  refine ⟨fun h => ?_, fun hd => decodeWith_of_no_row hd bytes⟩
  cases hd : opcodeTable.descriptor op with
  | none => rfl
  | some d =>
    obtain he | ⟨he, -⟩ := decodeRow_error ((decode_of_row hd bytes).symm.trans h) <;> cases he

/-! ## The statements about the encoding -/

/-- Settles O1: an instruction's row has its handler, mode and length, and decodes its operand bytes to it. -/
theorem decodeOfEncodeIsTheInstruction : Obligations.DecodeOfEncodeIsTheInstruction := by
  intro i rest
  obtain ⟨d, hd, hmn, hm, hl⟩ := row_of_instr i
  exact (decode_of_row hd _).trans (decodeRow_operandBytes hmn hm (hl.trans (length_operandBytes i)) rest)

/-- Settles O2: a row decodes from the operand bytes of what it decodes to, and handler and mode tell the opcode byte. -/
theorem decodedBytesAreTheEncoding : Obligations.DecodedBytesAreTheEncoding := by
  intro bytes rest i h
  obtain ⟨op, operand, d, rfl, hd, hrow⟩ := decode_ok h
  obtain ⟨hmn, hm, -, rfl⟩ := decodeRow_ok hrow
  rw [encode, opcode_of_row hd hmn hm, List.cons_append]

/-- Settles O3: what a row decodes to has its handler, mode and length; and a row of the default table rejects only bytes
that are too few. -/
theorem decoderFollowsTheOpcodeTable : Obligations.DecoderFollowsTheOpcodeTable := by
  refine ⟨fun op bytes rest i h => ?_, fun op bytes d hd hlen => ?_⟩
  · obtain ⟨_, _, d, ⟨⟩, hd, hrow⟩ := decode_ok h
    obtain ⟨hmn, hm, hl, rfl⟩ := decodeRow_ok hrow
    refine ⟨d, hd, hmn, hm, ?_⟩
    rw [hl, ← hm, ← length_operandBytes, List.length_append]
    omega
  · cases hdec : decode (op :: bytes) with
    | ok r => exact ⟨r.1, r.2, rfl⟩
    | error e =>
      obtain rfl | ⟨-, hshort⟩ := decodeRow_error ((decode_of_row hd bytes).symm.trans hdec)
      · exact absurd hdec (Machine.decode_ne_noConstructor _ d)
      · have hmode : d.length = d.mode.length := length_of_row d (mem_of_descriptor hd)
        omega

/-- Settles O4: a byte is rejected for want of a row exactly when no row has it. -/
theorem opcodeByteWithoutARowIsRejected : Obligations.OpcodeByteWithoutARowIsRejected := by
  intro op bytes
  have hbytes : [0xA9, 0xA5, 0xB5, 0xAD, 0xBD, 0xB9, 0xA1, 0xB1, 0x85, 0x95, 0x8D, 0x9D, 0x99, 0x81, 0x91, 0xAA, 0xE8, 0x00] =
    opcodeTable.map (fun d => d.opcode.toNat) := rfl
  rw [decode_eq_noDescriptor_iff, descriptor_eq_none_iff, hbytes]
  simp only [List.mem_map, BitVec.toNat_inj, not_exists, not_and, ne_eq]

/-- Settles O5: each word is the encoding of its instruction. -/
theorem writtenOutWordsDecode : Obligations.WrittenOutWordsDecode :=
  have hdec (i : Instr) : decode (encode i) = .ok (i, []) := by
    simpa using decodeOfEncodeIsTheInstruction i []
  ⟨hdec (.ldaImmediate 0x05), hdec (.ldaAbsoluteX 0x1234), hdec (.staIndirectY 0x20), hdec (.staAbsolute 0x0200),
    hdec .tax, hdec .inx, hdec .brk⟩

end Sys2Proof
end

section
/-! One inversion of a step over the default table: what a step answers from a state, one case per way. -/

namespace Sys2Proof.Machine

/-! ## The next state, over any table -/

/-- The state after one step over a table: the engine's during a run, the same one otherwise. -/
def nextWith (table : OpcodeTable) (s : State) : State :=
  if s.runStatus = .running then engineStep table s else s

section table
variable {table : OpcodeTable} {s : State}

theorem nextWith_of_running (h : s.runStatus = .running) : nextWith table s = engineStep table s := if_pos h

theorem nextWith_of_not_running (h : s.runStatus ≠ .running) : nextWith table s = s := if_neg h

/-- A byte without a row is a decode error (R87). -/
theorem stepWith_of_no_row (hrun : s.runStatus = .running) (hd : table.descriptor (fetchOpcode s) = none) :
    stepWith table s = .next (raiseDecodeError s) :=
  stepWith_of_reject hrun (decodeWith_of_no_row hd _)

/-- During a run the step over a table is the engine's (R90). -/
theorem stepWith_eq_engineStep (hrun : s.runStatus = .running) : stepWith table s = .next (engineStep table s) := by
  cases hd : table.descriptor (fetchOpcode s) with
  | none => rw [engineStep_of_no_row hd, stepWith_of_no_row hrun hd]
  | some d => rw [engineStep_of_row hd, stepWith_of_row hrun hd]

/-- A step over any table answers a next state. -/
theorem stepWith_eq_nextWith (table : OpcodeTable) (s : State) : stepWith table s = .next (nextWith table s) := by
  by_cases hrun : s.runStatus = .running
  · rw [nextWith_of_running hrun, stepWith_eq_engineStep hrun]
  · rw [nextWith_of_not_running hrun]
    exact stepWith_of_not_running hrun

end table

/-! ## Over the default table -/

/-- What a step over the default table makes of a state: nothing between runs, the end of the run at a byte without a
row, or one of the five handlers by the byte's row. -/
inductive Stepped (s : State) : State → Prop where
  | betweenRuns (hrun : s.runStatus ≠ .running) : Stepped s s
  | noRow (hrun : s.runStatus = .running) (hd : opcodeTable.descriptor (fetchOpcode s) = none) :
      Stepped s (raiseDecodeError s)
  | load {d : Descriptor} {ea : Word} (hrun : s.runStatus = .running)
      (hd : opcodeTable.descriptor (fetchOpcode s) = some d) (hmn : d.mnemonic = .lda)
      (hea : resolve d.mode (pcIncrement s) = .ok ea) :
      Stepped s (pcAdvance d.length (loadA (readByte ea s) (pcIncrement s)))
  | store {d : Descriptor} {ea : Word} (hrun : s.runStatus = .running)
      (hd : opcodeTable.descriptor (fetchOpcode s) = some d) (hmn : d.mnemonic = .sta)
      (hea : resolve d.mode (pcIncrement s) = .ok ea) :
      Stepped s (pcAdvance d.length (storeA ea (pcIncrement s)))
  | transfer {d : Descriptor} (hrun : s.runStatus = .running)
      (hd : opcodeTable.descriptor (fetchOpcode s) = some d) (hmn : d.mnemonic = .tax) :
      Stepped s (pcAdvance d.length (transferAX (pcIncrement s)))
  | increment {d : Descriptor} (hrun : s.runStatus = .running)
      (hd : opcodeTable.descriptor (fetchOpcode s) = some d) (hmn : d.mnemonic = .inx) :
      Stepped s (pcAdvance d.length (incrementX (pcIncrement s)))
  | halt {d : Descriptor} (hrun : s.runStatus = .running)
      (hd : opcodeTable.descriptor (fetchOpcode s) = some d) (hmn : d.mnemonic = .brk) :
      Stepped s (endRun .normalBreak (pcIncrement s))

/-- Every step is one of these: a row of the default table never asks for an address with mode None (R76). -/
theorem stepped_nextWith (s : State) : Stepped s (nextWith opcodeTable s) := by
  by_cases hrun : s.runStatus = .running
  · rw [nextWith_of_running hrun]
    cases hd : opcodeTable.descriptor (fetchOpcode s) with
    | none =>
      rw [engineStep_of_no_row hd]
      exact .noRow hrun hd
    | some d =>
      rw [engineStep_of_row hd]
      obtain ⟨hmn, ea, hea, h⟩ | ⟨hmn, ea, hea, h⟩ | ⟨hmn, h⟩ | ⟨hmn, h⟩ | ⟨hmn, h⟩ | ⟨hm, hmn, -⟩ :=
        engineExecute_cases d (pcIncrement s)
      · exact h ▸ .load hrun hd hmn hea
      · exact h ▸ .store hrun hd hmn hea
      · exact h ▸ .transfer hrun hd hmn
      · exact h ▸ .increment hrun hd hmn
      · exact h ▸ .halt hrun hd hmn
      · exact absurd hmn (not_lda_or_sta_of_impliedHandler (impliedHandler_of_opcodeTable hd) hm)
  · rw [nextWith_of_not_running hrun]
    exact .betweenRuns hrun

theorem step_eq_nextWith (s : State) : step s = .next (nextWith opcodeTable s) :=
  stepWith_eq_nextWith opcodeTable s

theorem stepped_of_step {s t : State} (h : step s = .next t) : Stepped s t := by
  cases (step_eq_nextWith s).symm.trans h
  exact stepped_nextWith s

/-! ## Rows of the default table, by the fetched byte -/

/-- BRK is the row of 0x00 and of no other byte (R70). -/
theorem brk_iff_of_descriptor {op : Byte} {d : Descriptor} (hd : opcodeTable.descriptor op = some d) :
    d.mnemonic = .brk ↔ op = 0x00 := by
  have hrows : ∀ e ∈ opcodeTable, e.mnemonic = .brk ↔ e.opcode = 0x00 := by decide
  exact opcode_of_descriptor hd ▸ hrows d (mem_of_descriptor hd)

theorem length_bounds_of_descriptor {op : Byte} {d : Descriptor} (hd : opcodeTable.descriptor op = some d) :
    1 ≤ d.length ∧ d.length ≤ 3 := by
  have hrows : ∀ e ∈ opcodeTable, 1 ≤ e.length ∧ e.length ≤ 3 := by decide
  exact hrows d (mem_of_descriptor hd)

end Sys2Proof.Machine
end

section
/-! The invariant: memory in canonical form and a true report, kept by every step. -/

namespace Sys2Proof.Machine

theorem memoryCanonical_of_step {s t : State} (hs : s.memoryCanonical) (h : step s = .next t) : t.memoryCanonical := by
  cases stepped_of_step h with
  | store => exact writeByte_wf _ _ _ hs
  | betweenRuns | noRow | load | transfer | increment | halt => exact hs

theorem reportTrue_of_running {s : State} (h : s.runStatus = .running) : s.reportTrue := by
  rw [State.reportTrue, h]
  trivial

/-- After a decode error PC is one past the byte that has no row (R172, D8). -/
theorem reportTrue_raiseDecodeError {s : State} (hd : opcodeTable.descriptor (fetchOpcode s) = none) :
    (raiseDecodeError s).reportTrue :=
  ⟨rfl, rfl, hd⟩

/-- After `Break` the byte before PC is the one fetched (R95, D7). -/
theorem reportTrue_break {s : State} (hop : fetchOpcode s = 0x00) : (endRun .normalBreak (pcIncrement s)).reportTrue := by
  change readByte (s.pc + 1 - 1) s = 0x00
  rw [BitVec.add_sub_cancel]
  exact hop

theorem reportTrue_of_step {s t : State} (hs : s.reportTrue) (h : step s = .next t) : t.reportTrue := by
  cases stepped_of_step h with
  | betweenRuns => exact hs
  | noRow _ hd => exact reportTrue_raiseDecodeError hd
  | load hrun | store hrun | transfer hrun | increment hrun => exact reportTrue_of_running hrun
  | halt _ hd hmn => exact reportTrue_break ((brk_iff_of_descriptor hd).mp hmn)

/-- Settles O45: both parts of the invariant are kept by every way a step can go. -/
theorem stepKeepsTheInvariant : Obligations.StepKeepsTheInvariant :=
  fun _ _ ⟨hmem, hreport⟩ h => ⟨memoryCanonical_of_step hmem h, reportTrue_of_step hreport h⟩

/-- Settles O46: the reset state lists no cell and reports nothing. -/
theorem resetStateHasTheInvariant : Obligations.ResetStateHasTheInvariant :=
  ⟨State.reset_mem_wf, trivial⟩

end Sys2Proof.Machine
end

section
/-! EXECUTE of each instruction on the state the fetch left: completion, result and frame. -/

namespace Sys2Proof.Machine
open Sys2Proof.Claims

/-! ## The operand advance and the handlers -/

/-- The operand advance of one more byte is the fetch's increment and then the operand advance (R86, R91). -/
theorem pcAdvance_succ (n : Nat) (s : State) : pcAdvance (n + 1) s = pcAdvance n (pcIncrement s) := by
  have hpc : s.pc + BitVec.ofNat 16 (n + 1) - 1 = s.pc + 1 + BitVec.ofNat 16 n - 1 := by bv_omega
  exact congrArg s.setPc hpc

theorem loaded_pcAdvance_loadA (v : Byte) (n : Nat) (s : State) : Loaded v n s (pcAdvance (n + 1) (loadA v s)) :=
  pcAdvance_succ n (loadA v s) ▸ loaded_loadA v n s

theorem stored_pcAdvance_storeA (ea : Word) (n : Nat) (s : State) : Stored ea n s (pcAdvance (n + 1) (storeA ea s)) :=
  pcAdvance_succ n (storeA ea s) ▸ stored_storeA ea n s

/-! ## The statements about `exec` -/

/-- Settles O6: each form completes the LOAD handler at its own address, with one operand byte or two. -/
theorem ldaLoadsAccumulatorAndFlagsInEveryMode : Obligations.LdaLoadsAccumulatorAndFlagsInEveryMode := by
  intro s
  have hone (v : Byte) := loaded_pcAdvance_loadA v 1 s
  have htwo (v : Byte) := loaded_pcAdvance_loadA v 2 s
  exact ⟨fun v => ⟨_, rfl, hone v⟩, fun _ => ⟨_, rfl, hone _⟩, fun _ => ⟨_, rfl, hone _⟩, fun _ => ⟨_, rfl, htwo _⟩,
    fun _ => ⟨_, rfl, htwo _⟩, fun _ => ⟨_, rfl, htwo _⟩, fun _ => ⟨_, rfl, hone _⟩, fun _ => ⟨_, rfl, hone _⟩⟩

/-- Settles O7: each form completes the STORE handler at its own address, with one operand byte or two. -/
theorem staStoresAccumulatorAtOneCellInEveryMode : Obligations.StaStoresAccumulatorAtOneCellInEveryMode := by
  intro s
  have hone (ea : Word) := stored_pcAdvance_storeA ea 1 s
  have htwo (ea : Word) := stored_pcAdvance_storeA ea 2 s
  exact ⟨fun _ => ⟨_, rfl, hone _⟩, fun _ => ⟨_, rfl, hone _⟩, fun w => ⟨_, rfl, htwo w⟩, fun _ => ⟨_, rfl, htwo _⟩,
    fun _ => ⟨_, rfl, htwo _⟩, fun _ => ⟨_, rfl, hone _⟩, fun _ => ⟨_, rfl, hone _⟩⟩

/-- Settles O8: TAX completes the TRANSFER handler, with no operand byte. -/
theorem taxCopiesAccumulatorToX : Obligations.TaxCopiesAccumulatorToX :=
  fun s => ⟨_, rfl, pcAdvance_succ 0 (transferAX s) ▸ indexXSet_transferAX 0 s⟩

/-- Settles O9: INX completes the INCREMENT handler, with no operand byte, and X counts in eight bits. -/
theorem inxAddsOneToXModulo256 : Obligations.InxAddsOneToXModulo256 :=
  fun s => ⟨_, rfl, BitVec.toNat_add s.x 1, pcAdvance_succ 0 (incrementX s) ▸ indexXSet_incrementX 0 s⟩

/-- Settles O10: BRK answers the end of the run, which writes S only. -/
theorem brkEndsTheRunAndChangesNothingElse : Obligations.BrkEndsTheRunAndChangesNothingElse := by
  intro s
  obtain ⟨hstatus, ha, hx, hy, hp, hpc, hmem⟩ := endRun_spec .normalBreak s
  exact ⟨_, rfl, hstatus, ha, hx, hy, hp, hpc, fun addr => readByte_congr addr hmem⟩

end Sys2Proof.Machine
end

section
/-! Effective addresses as numbers, the resolver in the absolute modes and in Indirect,Y, and what the resolver depends on. -/

namespace Sys2Proof.Machine
open Sys2Proof.Claims

/-! ## Address functions -/

/-- The index is added modulo 2^16 (R109). -/
theorem toNat_absoluteIndexed (w : Word) (index : Byte) :
    (absoluteIndexed w index).toNat = (w.toNat + index.toNat) % 65536 := by
  rw [absoluteIndexed, BitVec.toNat_add, toNat_zext16]

/-- Y is added to the pointer's word modulo 2^16 (R112). -/
theorem toNat_indirectYAddress (zz : Byte) (s : State) :
    (indirectYAddress zz s).toNat = (pointerAt zz.toNat s + s.y.toNat) % 65536 := by
  rw [indirectYAddress, BitVec.toNat_add, toNat_readZeroPageWord, toNat_zext16]

/-- Settles O11: one lemma for each address function. -/
theorem effectiveAddressesFollowTheirFormulas : Obligations.EffectiveAddressesFollowTheirFormulas :=
  fun zz index w s => ⟨toNat_zeroPageAddress zz, toNat_zeroPageIndexed zz index, toNat_absoluteIndexed w index,
    toNat_indirectXAddress zz s, toNat_indirectYAddress zz s⟩

/-! ## The resolver -/

theorem toNat_readWord_pc (s : State) : (readWord s.pc s).toNat = operandWord s := by
  rw [toNat_readWord, operandWord, Nat.add_comm]

/-- Settles O13: the absolute modes answer the word at PC, indexed or not. -/
theorem resolverAbsoluteModes : Obligations.ResolverAbsoluteModes := by
  intro s
  rw [← toNat_readWord_pc]
  exact ⟨⟨_, rfl, rfl⟩, ⟨_, rfl, toNat_absoluteIndexed _ _⟩, ⟨_, rfl, toNat_absoluteIndexed _ _⟩⟩

/-- Settles O15: the resolver answers the Indirect,Y address of the byte at PC. -/
theorem resolverIndirectY : Obligations.ResolverIndirectY := by
  intro s
  rw [cellAt_toNat]
  exact ⟨_, rfl, toNat_indirectYAddress _ s⟩

theorem readWord_congr {addr : Word} {s u : State} (hlo : readByte addr u = readByte addr s)
    (hhi : readByte (addr + 1) u = readByte (addr + 1) s) : readWord addr u = readWord addr s := by
  rw [readWord, readWord, hlo, hhi]

theorem readZeroPageWord_congr {z : Byte} {s u : State} (hlo : readByte (zext16 z) u = readByte (zext16 z) s)
    (hhi : readByte (zext16 (z + 1)) u = readByte (zext16 (z + 1)) s) : readZeroPageWord z u = readZeroPageWord z s := by
  rw [readZeroPageWord, readZeroPageWord, hlo, hhi]

/-- Settles O16: every byte that a mode's address is made of is in its list of reads. -/
theorem resolverDependsOnlyOnTheCellsItReads : Obligations.ResolverDependsOnlyOnTheCellsItReads := by
  intro m s u hpc hx hy hreads
  cases m with
  | immediate | implied => simp [resolve, resolverReads, hpc]
  | zeroPage | zeroPageX | zeroPageY =>
    have hoperand := List.forall_mem_singleton.mp hreads
    simp [resolve, resolverReads, hpc, hx, hy, hoperand]
  | absolute | absoluteX | absoluteY =>
    simp only [resolverReads, List.forall_mem_cons] at hreads
    obtain ⟨hlo, hhi, -⟩ := hreads
    have hword := readWord_congr hlo hhi
    simp [resolve, resolverReads, hpc, hx, hy, hword]
  | indirectX | indirectY =>
    simp only [resolverReads, List.forall_mem_cons] at hreads
    obtain ⟨hoperand, hlo, hhi, -⟩ := hreads
    have hword := readZeroPageWord_congr hlo hhi
    simp [resolve, resolverReads, indirectXAddress, indirectYAddress, hpc, hx, hy, hoperand, hword]

end Sys2Proof.Machine
end

section
/-! A word written: the byte each address reads afterwards. -/

namespace Sys2Proof.Machine
open Sys2Proof.Claims

/-- After a word write two cells hold the word's bytes and every other cell reads as before (R48). -/
theorem readByte_writeWord (addr w b : Word) (s : State) :
    readByte b (writeWord addr w s) =
      if b = addr + 1 then highByte w else if b = addr then lowByte w else readByte b s := by
  rw [writeWord, readByte_writeByte, readByte_writeByte]

/-- The two cells of a word are distinct, also where the high byte's address wraps (R49). -/
theorem ne_add_one (addr : Word) : addr ≠ addr + 1 := by
  bv_omega

theorem readByte_writeWord_low (addr w : Word) (s : State) : readByte addr (writeWord addr w s) = lowByte w := by
  rw [readByte_writeWord, if_neg (ne_add_one addr), if_pos rfl]

theorem readByte_writeWord_high (addr w : Word) (s : State) : readByte (addr + 1) (writeWord addr w s) = highByte w := by
  rw [readByte_writeWord, if_pos rfl]

theorem readByte_writeWord_of_ne {addr b : Word} (w : Word) (s : State) (hlo : b ≠ addr) (hhi : b ≠ addr + 1) :
    readByte b (writeWord addr w s) = readByte b s := by
  rw [readByte_writeWord, if_neg hhi, if_neg hlo]

/-- The word written is the word read back. -/
theorem readWord_writeWord (addr w : Word) (s : State) : readWord addr (writeWord addr w s) = w := by
  rw [readWord, readByte_writeWord_high, readByte_writeWord_low, joinBytes_high_low]

/-- Settles O19: the low byte is at the address, the high byte at the next modulo 2^16. -/
theorem wordWriteThenReadIsLittleEndian : Obligations.WordWriteThenReadIsLittleEndian := by
  intro addr w s
  have hlow : (readByte addr (writeWord addr w s)).toNat = w.toNat % 256 := by
    rw [readByte_writeWord_low, toNat_lowByte]
  have hhigh : cellAt ((addr.toNat + 1) % 65536) (writeWord addr w s) = w.toNat / 256 :=
    calc cellAt ((addr.toNat + 1) % 65536) (writeWord addr w s)
      _ = cellAt (addr + 1).toNat (writeWord addr w s) := by rw [BitVec.toNat_add]; rfl
      _ = (highByte w).toNat := by rw [cellAt_toNat, readByte_writeWord_high]
      _ = w.toNat / 256 := toNat_highByte w
  exact ⟨_, rfl, hlow, hhigh, readWord_writeWord addr w s, fun _ => readByte_writeWord_of_ne w s,
    rfl, rfl, rfl, rfl, rfl, rfl⟩

end Sys2Proof.Machine
end

section
/-! Whole steps at written-out bytes: the operand the resolver finds after the opcode byte, the LDA and STA opcodes mode by
mode, and the ends of a run. -/

namespace Sys2Proof.Machine
open Sys2Proof.Claims

/-! ## Bytes at PC -/

/-- Bytes at PC, as many as the longest instruction has at most, are the first that the decoder is given. -/
theorem fetchBytes_of_runningAt {bytes : List Byte} {s : State} (h : RunningAt bytes s) (hlen : bytes.length ≤ 3) :
    ∃ rest, fetchBytes s = bytes ++ rest := by
  obtain ⟨-, hat⟩ := h
  have hprefix : bytes <+: fetchBytes s := by
    rw [List.prefix_iff_getElem]
    refine ⟨hlen, fun k hk => ?_⟩
    have hk3 : k < 3 := by omega
    rw [← hat k hk]
    interval_cases k
    · exact congrArg (readByte · s) (BitVec.add_zero s.pc)
    · rfl
    · rfl
  obtain ⟨rest, hrest⟩ := hprefix
  exact ⟨rest, hrest.symm⟩

/-- No instruction is longer than 3 bytes (R66). -/
theorem length_encode_le (i : Instr) : (encode i).length ≤ 3 := by
  obtain ⟨d, hd, -, -, hl⟩ := row_of_instr i
  exact hl ▸ (length_bounds_of_descriptor hd).2

/-- Settles O20: the step runs what the fetched bytes decode to, and an encoding at PC decodes to its instruction. -/
theorem stepRunsTheDecodedInstruction : Obligations.StepRunsTheDecodedInstruction := by
  refine ⟨fun s i rest hrun hdec _ => step_of_decode hrun hdec, fun s i h => ?_⟩
  obtain ⟨rest, hrest⟩ := fetchBytes_of_runningAt h (length_encode_le i)
  exact step_of_decode h.1 (hrest ▸ decodeOfEncodeIsTheInstruction i rest)

/-! ## What the resolver answers after the fetch -/

section operands
variable {op zz ll hh : Byte} {s : State}

theorem cellAt_operand (h : RunningAt [op, zz] s) : cellAt (pcIncrement s).pc.toNat (pcIncrement s) = zz.toNat := by
  rw [cellAt_toNat, readByte_pcIncrement, pcIncrement_pc, operand_of_runningAt h]

theorem operandWord_operand (h : RunningAt [op, ll, hh] s) :
    operandWord (pcIncrement s) = 256 * hh.toNat + ll.toNat := by
  have hhi : readByte (s.pc + 1 + 1) s = hh := by
    rw [BitVec.add_assoc]
    exact h.2 2 (Nat.lt_succ_self 2)
  rw [← toNat_readWord_pc, readWord, toNat_joinBytes, readByte_pcIncrement, readByte_pcIncrement, pcIncrement_pc, hhi,
    operand_of_runningAt h]

theorem resolvesTo_zeroPage (h : RunningAt [op, zz] s) : ResolvesTo .zeroPage (pcIncrement s) zz.toNat :=
  have ⟨_, hres, _⟩ := resolverImmediateAndZeroPageModes (pcIncrement s)
  cellAt_operand h ▸ hres

theorem resolvesTo_zeroPageX (h : RunningAt [op, zz] s) :
    ResolvesTo .zeroPageX (pcIncrement s) ((zz.toNat + s.x.toNat) % 256) :=
  have ⟨_, _, hres, _⟩ := resolverImmediateAndZeroPageModes (pcIncrement s)
  cellAt_operand h ▸ hres

theorem resolvesTo_absolute (h : RunningAt [op, ll, hh] s) :
    ResolvesTo .absolute (pcIncrement s) (256 * hh.toNat + ll.toNat) :=
  have ⟨hres, _, _⟩ := resolverAbsoluteModes (pcIncrement s)
  operandWord_operand h ▸ hres

theorem resolvesTo_absoluteX (h : RunningAt [op, ll, hh] s) :
    ResolvesTo .absoluteX (pcIncrement s) ((256 * hh.toNat + ll.toNat + s.x.toNat) % 65536) :=
  have ⟨_, hres, _⟩ := resolverAbsoluteModes (pcIncrement s)
  operandWord_operand h ▸ hres

theorem resolvesTo_absoluteY (h : RunningAt [op, ll, hh] s) :
    ResolvesTo .absoluteY (pcIncrement s) ((256 * hh.toNat + ll.toNat + s.y.toNat) % 65536) :=
  have ⟨_, _, hres⟩ := resolverAbsoluteModes (pcIncrement s)
  operandWord_operand h ▸ hres

theorem resolvesTo_indirectX (h : RunningAt [op, zz] s) :
    ResolvesTo .indirectX (pcIncrement s) (pointerAt (zz.toNat + s.x.toNat) s) :=
  cellAt_operand h ▸ resolverIndirectX (pcIncrement s)

theorem resolvesTo_indirectY (h : RunningAt [op, zz] s) :
    ResolvesTo .indirectY (pcIncrement s) ((pointerAt zz.toNat s + s.y.toNat) % 65536) :=
  cellAt_operand h ▸ resolverIndirectY (pcIncrement s)

end operands

/-! ## LDA and STA at their bytes -/

/-- The address a mode resolves to is the word of its number. -/
theorem eq_ofNat_of_resolvesTo {m : Mode} {s : State} {n : Nat} {ea : Word} (hn : ResolvesTo m s n)
    (hea : resolve m s = .ok ea) : ea = BitVec.ofNat 16 n := by
  obtain ⟨ea', hea', rfl⟩ := hn
  cases hea.symm.trans hea'
  rw [BitVec.ofNat_toNat, BitVec.setWidth_eq]

section rows
variable {op : Byte} {operands : List Byte} {d : Descriptor} {s : State} {n : Nat}

/-- With the bytes of an LDA row at PC, one step loads from the number its mode resolves to. -/
theorem stepLoads_of_row (hd : opcodeTable.descriptor op = some d) (hmn : d.mnemonic = .lda)
    (hlen : d.length = (op :: operands).length)
    (hn : RunningAt (op :: operands) s → ResolvesTo d.mode (pcIncrement s) n) : StepLoads s (op :: operands) n := by
  intro h
  obtain ⟨ea, t, hea, hstep, hload⟩ := step_of_lda_at h hd hmn
  obtain rfl := eq_ofNat_of_resolvesTo (hn h) hea
  exact ⟨t, hstep, hlen ▸ hload⟩

/-- With the bytes of an STA row at PC, one step stores at the number its mode resolves to. -/
theorem stepStores_of_row (hd : opcodeTable.descriptor op = some d) (hmn : d.mnemonic = .sta)
    (hlen : d.length = (op :: operands).length)
    (hn : RunningAt (op :: operands) s → ResolvesTo d.mode (pcIncrement s) n) : StepStores s (op :: operands) n := by
  intro h
  have hfetch : opcodeTable.descriptor (fetchOpcode s) = some d := (congrArg _ (fetchOpcode_of_runningAt h)).trans hd
  obtain ⟨ea, t, hea, hstep, hstore⟩ := stepOfAnStaRowStoresAtTheResolvedAddress s d h.1 hfetch hmn
  obtain rfl := eq_ofNat_of_resolvesTo (hn h) hea
  exact ⟨t, hstep, hlen ▸ hstore⟩

end rows

/-- Settles O28: each byte's row is LDA in its mode, and the mode resolves to its formula of the operand bytes. -/
theorem stepLdaOfTheRemainingModes : Obligations.StepLdaOfTheRemainingModes :=
  fun _ _ _ _ => ⟨stepLoads_of_row rfl rfl rfl resolvesTo_zeroPageX, stepLoads_of_row rfl rfl rfl resolvesTo_absolute,
    stepLoads_of_row rfl rfl rfl resolvesTo_absoluteX, stepLoads_of_row rfl rfl rfl resolvesTo_absoluteY,
    stepLoads_of_row rfl rfl rfl resolvesTo_indirectX, stepLoads_of_row rfl rfl rfl resolvesTo_indirectY⟩

/-- Settles O29: each byte's row is STA in its mode, and the mode resolves to its formula of the operand bytes. -/
theorem stepStaOfEveryMode : Obligations.StepStaOfEveryMode :=
  fun _ _ _ _ => ⟨stepStores_of_row rfl rfl rfl resolvesTo_zeroPage, stepStores_of_row rfl rfl rfl resolvesTo_zeroPageX,
    stepStores_of_row rfl rfl rfl resolvesTo_absolute, stepStores_of_row rfl rfl rfl resolvesTo_absoluteX,
    stepStores_of_row rfl rfl rfl resolvesTo_absoluteY, stepStores_of_row rfl rfl rfl resolvesTo_indirectX,
    stepStores_of_row rfl rfl rfl resolvesTo_indirectY⟩

/-- Settles O39: the two operand bytes join to the address after the instruction, where PC is when A stands there. -/
theorem storeIsSeenByTheNextFetch : Obligations.StoreIsSeenByTheNextFetch := by
  intro s h
  obtain ⟨-, -, hstores, -⟩ := stepStaOfEveryMode s 0 (lowByte (s.pc + 3)) (highByte (s.pc + 3))
  obtain ⟨t, hstep, hcell, -, hpc, -, -, -, -, hstatus⟩ := hstores h
  rw [← toNat_joinBytes, joinBytes_high_low, BitVec.ofNat_toNat, BitVec.setWidth_eq] at hcell
  have hnext : t.pc = s.pc + 3 := BitVec.eq_of_toNat_eq (hpc.trans (BitVec.toNat_add s.pc 3).symm)
  exact ⟨t, hstep, hnext, hstatus.trans h.1, (congrArg (readByte · t) hnext).trans hcell⟩

/-! ## The ends of a run, and between runs -/

/-- Settles O27: the row of 00 is BRK, which ends the run after the fetch's increment. -/
theorem stepBrk : Obligations.StepBrk :=
  fun _ h => step_of_row_at h rfl

/-- Settles O30: a decode error ends the run after the fetch's increment. -/
theorem stepAtAByteWithoutARowReportsDecodeError : Obligations.StepAtAByteWithoutARowReportsDecodeError :=
  fun _ hrun hd => stepWith_of_no_row hrun hd

/-- Settles O31: a step consults S first. -/
theorem noActionBetweenRuns : Obligations.NoActionBetweenRuns :=
  fun _ h => step_of_not_running h

/-- Settles O32: the next state is the engine's during a run and the same one between runs. -/
theorem everyStepAnswersANextState : Obligations.EveryStepAnswersANextState :=
  fun s => ⟨_, step_eq_nextWith s⟩

end Sys2Proof.Machine
end

section
/-! Whole-machine rules: who writes a register, a cell, PC and S, read off the ways a step can go. -/

namespace Sys2Proof.Machine
open Sys2Proof.Claims

/-! ## Who writes what -/

/-- Settles O34: of the ways a step can go, LOAD alone writes A, TRANSFER and INCREMENT write X, these three write P, and
none writes Y. -/
theorem onlyTheNamedInstructionsWriteRegisters : Obligations.OnlyTheNamedInstructionsWriteRegisters := by
  intro s t h
  cases stepped_of_step h with
  | betweenRuns | noRow | store | halt => exact ⟨rfl, absurd rfl, absurd rfl, absurd rfl⟩
  | load hrun hd hmn =>
    have hlda : OpcodeHandler s .lda := ⟨hrun, _, hd, hmn⟩
    exact ⟨rfl, fun _ => hlda, absurd rfl, fun _ => .inl hlda⟩
  | transfer hrun hd hmn =>
    have htax : OpcodeHandler s .tax := ⟨hrun, _, hd, hmn⟩
    exact ⟨rfl, absurd rfl, fun _ => .inl htax, fun _ => .inr (.inl htax)⟩
  | increment hrun hd hmn =>
    have hinx : OpcodeHandler s .inx := ⟨hrun, _, hd, hmn⟩
    exact ⟨rfl, absurd rfl, fun _ => .inr hinx, fun _ => .inr (.inr hinx)⟩

/-- Settles O35: of the ways a step can go, STORE alone writes memory, at the one address. -/
theorem onlyStaChangesMemoryAndOnlyOneCell : Obligations.OnlyStaChangesMemoryAndOnlyOneCell := by
  intro s t h
  cases stepped_of_step h with
  | betweenRuns | noRow | load | transfer | increment | halt => exact .inl fun _ => rfl
  | @store d ea hrun hd hmn hea =>
    obtain ⟨hcell, hothers, -⟩ := stored_storeA ea d.length s
    exact .inr ⟨hrun, d, ea, hd, hmn, hea, hcell, hothers⟩

/-! ## Who reads P -/

/-- EXECUTE of a row passes a change of P on to P alone. -/
theorem engineExecute_setP (d : Descriptor) (s : State) (q : Byte) :
    ∃ r, engineExecute d (s.setP q) = (engineExecute d s).setP r := by
  obtain ⟨op, mn, m, n, c⟩ := d
  have hresolve : resolveIfNeeded m (s.setP q) = resolveIfNeeded m s := by cases m <;> rfl
  obtain ⟨ea, hr, -⟩ := resolveIfNeeded_cases m s
  simp only [engineExecute, hresolve, hr]
  cases mn with
  | lda =>
    cases ea with
    | none => exact ⟨q, rfl⟩
    | some addr => exact ⟨updateZN (readByte addr s) q, rfl⟩
  | sta => cases ea <;> exact ⟨q, rfl⟩
  | tax => exact ⟨updateZN s.a q, rfl⟩
  | inx => exact ⟨updateZN (s.x + 1) q, rfl⟩
  | brk => exact ⟨q, rfl⟩

/-- A step over any table passes a change of P on to P alone. -/
theorem nextWith_setP (table : OpcodeTable) (s : State) (q : Byte) :
    ∃ r, nextWith table (s.setP q) = (nextWith table s).setP r := by
  by_cases hrun : s.runStatus = .running
  · rw [nextWith_of_running hrun, nextWith_of_running (s := s.setP q) hrun]
    cases hd : table.descriptor (fetchOpcode s) with
    | none =>
      rw [engineStep_of_no_row hd, engineStep_of_no_row (s := s.setP q) hd]
      exact ⟨q, rfl⟩
    | some d =>
      rw [engineStep_of_row hd, engineStep_of_row (s := s.setP q) hd]
      exact engineExecute_setP d (pcIncrement s) q
  · rw [nextWith_of_not_running hrun, nextWith_of_not_running (s := s.setP q) hrun]
    exact ⟨q, rfl⟩

/-- Settles O36: two states that differ in P step to states that differ in P at most. -/
theorem noInstructionReadsTheStatusRegister : Obligations.NoInstructionReadsTheStatusRegister := by
  intro s q
  obtain ⟨r, hr⟩ := nextWith_setP opcodeTable s q
  exact ⟨_, _, step_eq_nextWith s, (step_eq_nextWith (s.setP q)).trans (congrArg _ hr), rfl, rfl, rfl, rfl, rfl, rfl⟩

/-! ## PC and S -/

/-- Settles O37: a step that leaves S Running is a handler with its operand advance, by the row's length. -/
theorem continuingStepAdvancesPcByTheLength : Obligations.ContinuingStepAdvancesPcByTheLength := by
  intro s t hrun h hrun'
  cases stepped_of_step h with
  | betweenRuns hnot => exact absurd hrun hnot
  | noRow | halt => cases hrun'
  | @load d _ _ hd | @store d _ _ hd | @transfer d _ hd | @increment d _ hd =>
    obtain ⟨hpos, hle⟩ := length_bounds_of_descriptor hd
    exact ⟨d, hd, hpos, hle, pcAdvanced_of_fetched d.length rfl⟩

/-- A byte whose row is another handler's is not 0x00, and has a row. -/
theorem not_brk_or_noRow {op : Byte} {d : Descriptor} (hd : opcodeTable.descriptor op = some d) (hmn : d.mnemonic ≠ .brk) :
    ¬ (op = 0x00 ∨ opcodeTable.descriptor op = none) := by
  rintro (hop | hnone)
  · exact hmn ((brk_iff_of_descriptor hd).mpr hop)
  · cases hd.symm.trans hnone

/-- Settles O38: BRK and a decode error end the run, with the fetch's increment and nothing else; the other handlers leave
S alone. -/
theorem runEndsExactlyAtBrkOrAByteWithoutARow : Obligations.RunEndsExactlyAtBrkOrAByteWithoutARow := by
  intro s t hrun h
  have hpc : PcAdvanced 1 s (pcIncrement s) := BitVec.toNat_add s.pc 1
  cases stepped_of_step h with
  | betweenRuns hnot => exact absurd hrun hnot
  | noRow _ hd =>
    exact ⟨iff_of_true nofun (.inr hd), fun _ => ⟨rfl, rfl, rfl, rfl, rfl, hpc⟩⟩
  | halt _ hd hmn =>
    exact ⟨iff_of_true nofun (.inl ((brk_iff_of_descriptor hd).mp hmn)), fun _ => ⟨rfl, rfl, rfl, rfl, rfl, hpc⟩⟩
  | load _ hd hmn | store _ hd hmn | transfer _ hd hmn | increment _ hd hmn =>
    have hgoes : ¬ s.runStatus ≠ .running := not_not_intro hrun
    exact ⟨iff_of_false hgoes (not_brk_or_noRow hd (hmn ▸ nofun)), fun hends => absurd hends hgoes⟩

end Sys2Proof.Machine
end

section
/-! The engine over any opcode table: a broken row, and the table of the five attested rows. -/

namespace Sys2Proof.Machine

/-- Settles O40: the step is the engine's over every table. -/
theorem stepIsTheEngineOnTheDefaultTable : Obligations.StepIsTheEngineOnTheDefaultTable :=
  fun _ hrun => stepWith_eq_engineStep hrun

/-- Settles O42: with mode None no address is resolved, and the handler's own request for one fails (R173). -/
theorem brokenTableRowRaisesAddressingError : Obligations.BrokenTableRowRaisesAddressingError := by
  intro table s d hd hm hmn
  obtain ⟨op, mn, m, n, c⟩ := d
  obtain rfl : m = .implied := hm
  rw [engineStep_of_row hd]
  obtain rfl | rfl : mn = .lda ∨ mn = .sta := hmn <;> rfl

/-- The attested rows are rows of the default table (D1). -/
theorem descriptor_of_attestedTable {op : Byte} {d : Descriptor} (h : attestedTable.descriptor op = some d) :
    opcodeTable.descriptor op = some d := by
  have hrows : ∀ e ∈ attestedTable, opcodeTable.descriptor e.opcode = some e := by decide
  exact opcode_of_descriptor h ▸ hrows d (mem_of_descriptor h)

theorem engineStep_attestedTable_of_row {s : State} {d : Descriptor}
    (hd : attestedTable.descriptor (fetchOpcode s) = some d) : engineStep attestedTable s = engineStep opcodeTable s := by
  rw [engineStep_of_row hd, engineStep_of_row (descriptor_of_attestedTable hd)]

/-- Settles O43: an attested opcode has the same row in both tables, and any other has none in the smaller one. -/
theorem attestedTableOnlyDropsRows : Obligations.AttestedTableOnlyDropsRows := by
  refine fun s => ⟨fun hrow => ?_, fun hnone => ?_⟩
  · obtain ⟨d, hd⟩ := Option.isSome_iff_exists.mp hrow
    exact engineStep_attestedTable_of_row hd
  · exact engineStep_of_no_row (Option.isNone_iff_eq_none.mp (Option.isSome_eq_false_iff.mp hnone))

end Sys2Proof.Machine
end

section
/-! The bus accesses of a step: the reads have no effect, and the handler's data access is the last. -/

namespace Sys2Proof.Machine
open Sys2Proof.Claims

/-- The reads of a step's fetch and resolver, before the data access. -/
def fetchAndResolverReads (d : Descriptor) (s : State) : List Word :=
  s.pc :: resolverReads d.mode (pcIncrement s)

theorem busAccesses_of_no_row {table : OpcodeTable} {s : State} (hd : table.descriptor (fetchOpcode s) = none) :
    busAccesses table s = [.read s.pc] := by
  rw [busAccesses, hd]

theorem busAccesses_of_row {table : OpcodeTable} {d : Descriptor} {s : State}
    (hd : table.descriptor (fetchOpcode s) = some d) :
    busAccesses table s = (fetchAndResolverReads d s).map .read ++ dataAccesses d (pcIncrement s) := by
  rw [busAccesses, hd]
  rfl

/-- A handler has one data access at most (R54). -/
theorem length_dataAccesses_le (d : Descriptor) (s : State) : (dataAccesses d s).length ≤ 1 := by
  unfold dataAccesses
  split <;> simp

/-- Reads have no effect (R55). -/
theorem foldl_perform_reads (addrs : List Word) (s : State) :
    (addrs.map BusAccess.read).foldl (fun u acc => acc.perform u) s = s := by
  induction addrs with
  | nil => rfl
  | cons addr addrs ih => exact ih

/-- Performing the accesses of a row is performing its data access. -/
theorem foldl_perform_busAccesses {table : OpcodeTable} {d : Descriptor} {s : State}
    (hd : table.descriptor (fetchOpcode s) = some d) :
    (busAccesses table s).foldl (fun u acc => acc.perform u) s =
      (dataAccesses d (pcIncrement s)).foldl (fun u acc => acc.perform u) s := by
  rw [busAccesses_of_row hd, List.foldl_append, foldl_perform_reads]

/-- Where reads and then one access at most are made, a write is the last access. -/
theorem eq_nil_of_write {addrs : List Word} {data before after : List BusAccess} {acc : BusAccess}
    (hdata : data.length ≤ 1) (hw : acc.isWrite = true)
    (h : addrs.map BusAccess.read ++ data = before ++ acc :: after) : after = [] := by
  induction addrs generalizing before with
  | nil =>
    have hlen := congrArg List.length h
    simp only [List.map_nil, List.nil_append, List.length_append, List.length_cons] at hlen
    exact List.eq_nil_of_length_eq_zero (by omega)
  | cons addr addrs ih =>
    cases before with
    | nil =>
      obtain rfl : BusAccess.read addr = acc := List.head_eq_of_cons_eq h
      cases hw
    | cons b before => exact ih (List.tail_eq_of_cons_eq h)

/-- Over any table, a write of a step is its last access. -/
theorem busAccesses_write_last {table : OpcodeTable} {s : State} {before after : List BusAccess} {acc : BusAccess}
    (h : busAccesses table s = before ++ acc :: after) (hw : acc.isWrite = true) : after = [] := by
  cases hd : table.descriptor (fetchOpcode s) with
  | none => exact eq_nil_of_write (addrs := [s.pc]) (data := []) (by decide) hw ((busAccesses_of_no_row hd).symm.trans h)
  | some d => exact eq_nil_of_write (length_dataAccesses_le d _) hw ((busAccesses_of_row hd).symm.trans h)

/-- Over the default table, performing a step's accesses gives the step's memory. -/
theorem sameMemory_foldl_perform {s t : State} (hrun : s.runStatus = .running) (h : step s = .next t) :
    SameMemory ((busAccesses opcodeTable s).foldl (fun u acc => acc.perform u) s) t := by
  cases stepped_of_step h with
  | betweenRuns hnot => exact absurd hrun hnot
  | noRow _ hd =>
    rw [busAccesses_of_no_row hd]
    exact fun _ => rfl
  | load _ hd hmn hea | store _ hd hmn hea =>
    rw [foldl_perform_busAccesses hd, dataAccesses, hmn, hea]
    exact fun _ => rfl
  | transfer _ hd hmn | increment _ hd hmn | halt _ hd hmn =>
    rw [foldl_perform_busAccesses hd, dataAccesses, hmn]
    exact fun _ => rfl

/-- Settles O44: the data access alone has an effect, the handler's own, and it is the last. -/
theorem busAccessesExplainMemoryAndWriteLast : Obligations.BusAccessesExplainMemoryAndWriteLast :=
  fun _ _ hrun h => ⟨sameMemory_foldl_perform hrun h, fun _ _ _ hsplit hw => busAccesses_write_last hsplit hw⟩

end Sys2Proof.Machine
end

section
/-! Runs: the step iterated, a halted machine at rest, and what the end of a run says. -/

namespace Sys2Proof.Machine
open Sys2Proof.Claims

/-! ## Runs as iteration of the next state -/

/-- The state after `n` steps of a run called in `s`. -/
def runStateWith (table : OpcodeTable) (s : State) (n : Nat) : State := (nextWith table)^[n] (startRun s)

section table
variable {table : OpcodeTable} {s t : State} {o : RunOutcome}

theorem runForWith_eq_iterate (table : OpcodeTable) (n : Nat) (s : State) :
    runForWith table n s = .next ((nextWith table)^[n] s) := by
  induction n generalizing s with
  | zero => rfl
  | succ n ih => rw [runForWith_succ (stepWith_eq_nextWith table s), ih, Function.iterate_succ_apply]

theorem runForWith_eq_next_iff {n : Nat} :
    runForWith table n (startRun s) = .next t ↔ runStateWith table s n = t := by
  rw [runForWith_eq_iterate, Host.Outcome.next.injEq, runStateWith]

theorem runReturnsWith_iff :
    RunReturnsWith table s o t ↔ ∃ n, runStateWith table s n = t ∧ t.runStatus = .halted o := by
  simp only [RunReturnsWith, runForWith_eq_next_iff]

theorem runsForeverWith_iff : RunsForeverWith table s ↔ ∀ n, (runStateWith table s n).runStatus = .running := by
  simp only [RunsForeverWith, runForWith_eq_next_iff, exists_eq_left']

theorem runStateWith_succ (table : OpcodeTable) (s : State) (n : Nat) :
    runStateWith table s (n + 1) = nextWith table (runStateWith table s n) :=
  Function.iterate_succ_apply' _ _ _

/-- Once no run is in progress, more steps change nothing (R101). -/
theorem runStateWith_of_le {n k : Nat} (h : (runStateWith table s n).runStatus ≠ .running) (hle : n ≤ k) :
    runStateWith table s k = runStateWith table s n := by
  induction k, hle using Nat.le_induction with
  | base => rfl
  | succ k _ ih => rw [runStateWith_succ, ih, nextWith_of_not_running h]

/-- Two states in which a run has ended are one. -/
theorem runStateWith_eq_of_ended {n k : Nat} (hn : (runStateWith table s n).runStatus ≠ .running)
    (hk : (runStateWith table s k).runStatus ≠ .running) : runStateWith table s k = runStateWith table s n := by
  obtain hle | hle := Nat.le_total n k
  · exact runStateWith_of_le hn hle
  · exact (runStateWith_of_le hk hle).symm

end table

/-! ## Ended or for ever -/

/-- A step never makes S Idle. -/
theorem Stepped.ne_idle {s t : State} (hstep : Stepped s t) (h : s.runStatus ≠ .idle) : t.runStatus ≠ .idle := by
  cases hstep with
  | betweenRuns | load | store | transfer | increment => exact h
  | noRow | halt => exact nofun

theorem runStateWith_ne_idle (s : State) (n : Nat) : (runStateWith opcodeTable s n).runStatus ≠ .idle := by
  induction n with
  | zero => exact nofun
  | succ n ih => exact runStateWith_succ opcodeTable s n ▸ (stepped_nextWith _).ne_idle ih

/-- Settles O48: a run that is not for ever reaches a state that is not Running and, since no step makes S Idle, Halted. -/
theorem runReturnsOrGoesOnForever : Obligations.RunReturnsOrGoesOnForever := by
  intro s
  by_cases hall : ∀ n, (runStateWith opcodeTable s n).runStatus = .running
  · exact .inr (runsForeverWith_iff.mpr hall)
  · obtain ⟨n, hn⟩ := not_forall.mp hall
    cases hstatus : (runStateWith opcodeTable s n).runStatus with
    | idle => exact absurd hstatus (runStateWith_ne_idle s n)
    | running => exact absurd hstatus hn
    | halted o => exact .inl ⟨o, _, runReturnsWith_iff.mpr ⟨n, rfl, hstatus⟩⟩

/-- Settles O49: a run rests in the state in which it has ended. -/
theorem runResultIsUnique : Obligations.RunResultIsUnique := by
  intro s o o' t t' h
  obtain ⟨n, rfl, hn⟩ := runReturnsWith_iff.mp h
  have hended : (runStateWith opcodeTable s n).runStatus ≠ .running := hn ▸ nofun
  refine ⟨fun h' => ?_, fun hforever => hended (runsForeverWith_iff.mp hforever n)⟩
  obtain ⟨k, rfl, hk⟩ := runReturnsWith_iff.mp h'
  have hsame := runStateWith_eq_of_ended hended (k := k) (hk ▸ nofun)
  rw [hsame, hn, RunStatus.halted.injEq] at hk
  exact ⟨hk.symm, hsame⟩

/-! ## What the end of a run says -/

theorem runStateWith_reportTrue (s : State) (n : Nat) : (runStateWith opcodeTable s n).reportTrue := by
  induction n with
  | zero => exact reportTrue_of_running rfl
  | succ n ih => exact reportTrue_of_step ih ((step_eq_nextWith _).trans (congrArg _ (runStateWith_succ _ s n).symm))

/-- Settles O50: a run starts with nothing reported, and every step keeps the report true. -/
theorem runReportsTheByteThatEndedIt : Obligations.RunReportsTheByteThatEndedIt := by
  intro s o t h
  obtain ⟨n, rfl, hstatus⟩ := runReturnsWith_iff.mp h
  have hreport := runStateWith_reportTrue s n
  rw [State.reportTrue, hstatus] at hreport
  cases o with
  | normalBreak => exact .inl ⟨rfl, hreport⟩
  | decodeError op addr => exact .inr ⟨op, addr, rfl, hreport⟩
  | addressingError m => exact hreport.elim

/-! ## Runs without an error -/

/-- A run that is in progress or ended by `Break`: no error so far. -/
def State.NoError (s : State) : Prop := s.runStatus = .running ∨ s.runStatus = .halted .normalBreak

theorem State.NoError.fatal_eq_false {s : State} {o : RunOutcome} (h : s.NoError) (ho : s.runStatus = .halted o) :
    o.fatal = false := by
  obtain hrun | hbreak := h
  · cases hrun.symm.trans ho
  · cases hbreak.symm.trans ho
    rfl

/-- A step at a byte with a row raises no error. -/
theorem Stepped.noError {s t : State} (hstep : Stepped s t) (h : s.NoError)
    (hrow : s.runStatus = .running → (opcodeTable.descriptor (fetchOpcode s)).isSome = true) : t.NoError := by
  cases hstep with
  | betweenRuns => exact h
  | noRow hrun hd => cases hd ▸ hrow hrun
  | load hrun | store hrun | transfer hrun | increment hrun => exact .inl hrun
  | halt => exact .inr rfl

/-- Settles O51: a fetched byte without a row is reported as a fatal outcome, and without one no step raises an error. -/
theorem safeRunIffEveryFetchedByteHasARow : Obligations.SafeRunIffEveryFetchedByteHasARow := by
  refine fun s => ⟨fun hsafe n t hreach hrun => ?_, fun hrows o t h => ?_⟩
  · obtain rfl := runForWith_eq_next_iff.mp hreach
    cases hd : opcodeTable.descriptor (fetchOpcode (runStateWith opcodeTable s n)) with
    | some d => rfl
    | none =>
      have hnext : runStateWith opcodeTable s (n + 1) = raiseDecodeError (runStateWith opcodeTable s n) := by
        rw [runStateWith_succ, nextWith_of_running hrun, engineStep_of_no_row hd]
      have hfatal := hsafe _ _ (runReturnsWith_iff.mpr ⟨n + 1, hnext, rfl⟩)
      cases hfatal
  · obtain ⟨n, rfl, hstatus⟩ := runReturnsWith_iff.mp h
    have hnoError (k : Nat) : (runStateWith opcodeTable s k).NoError := by
      induction k with
      | zero => exact .inl rfl
      | succ k ih =>
        have hrow := hrows k _ (runForWith_eq_next_iff.mpr rfl)
        exact runStateWith_succ opcodeTable s k ▸ (stepped_nextWith _).noError ih hrow
    exact (hnoError n).fatal_eq_false hstatus

/-! ## The five attested rows -/

/-- A step over the attested table that raises no error is the default table's. -/
theorem nextWith_of_attestedTable {s : State} (h : (nextWith attestedTable s).NoError) :
    s.NoError ∧ nextWith opcodeTable s = nextWith attestedTable s := by
  by_cases hrun : s.runStatus = .running
  · rw [nextWith_of_running hrun] at h ⊢
    rw [nextWith_of_running hrun]
    cases hd : attestedTable.descriptor (fetchOpcode s) with
    | none =>
      rw [engineStep_of_no_row hd] at h
      obtain herr | herr := h <;> cases herr
    | some d => exact ⟨.inl hrun, (engineStep_attestedTable_of_row hd).symm⟩
  · rw [nextWith_of_not_running hrun] at h ⊢
    exact ⟨h, (nextWith_of_not_running hrun).symm⟩

/-- As long as a run over the attested table has no error, the run over the default table is in the same state. -/
theorem runStateWith_of_attestedTable {s : State} {n : Nat} (h : (runStateWith attestedTable s n).NoError) :
    runStateWith opcodeTable s n = runStateWith attestedTable s n := by
  induction n with
  | zero => rfl
  | succ n ih =>
    rw [runStateWith_succ] at h
    obtain ⟨hbefore, hnext⟩ := nextWith_of_attestedTable h
    rw [runStateWith_succ, runStateWith_succ, ih hbefore, hnext]

/-- Settles O60: the step over a table is the engine's, and `Break` over the attested table is the end of a run without an
error. -/
theorem stepOverAnyTableIsTheEngineAndAttestedBreaksStand :
    Obligations.StepOverAnyTableIsTheEngineAndAttestedBreaksStand := by
  refine ⟨fun _ _ hrun => stepWith_eq_engineStep hrun, fun _ _ hrun => stepWith_of_not_running hrun, fun s t h => ?_⟩
  obtain ⟨n, rfl, hbreak⟩ := runReturnsWith_iff.mp h
  exact runReturnsWith_iff.mpr ⟨n, runStateWith_of_attestedTable (.inr hbreak), hbreak⟩

/-! ## INX in every cell -/

/-- `t` is `s` after `n` times INX, with the run in progress. -/
def InxRepeated (n : Nat) (s t : State) : Prop :=
  t.runStatus = .running ∧ PcAdvanced n s t ∧ t.x.toNat = (s.x.toNat + n) % 256 ∧ t.a = s.a ∧ t.y = s.y ∧ SameMemory s t

theorem inxRepeated_zero (s : State) : InxRepeated 0 s (startRun s) :=
  ⟨rfl, (Nat.mod_eq_of_lt s.pc.isLt).symm, (Nat.mod_eq_of_lt s.x.isLt).symm, rfl, rfl, fun _ => rfl⟩

theorem runningAt_singleton {op : Byte} {s : State} (hrun : s.runStatus = .running) (hop : fetchOpcode s = op) :
    RunningAt [op] s := by
  refine ⟨hrun, fun k hk => ?_⟩
  obtain rfl : k = 0 := Nat.lt_one_iff.mp hk
  rw [BitVec.add_zero]
  exact hop

/-- One more INX (R153). -/
theorem inxRepeated_succ {n : Nat} {s t : State} (hmem : ∀ addr : Word, readByte addr s = 0xE8)
    (h : InxRepeated n s t) : InxRepeated (n + 1) s (nextWith opcodeTable t) := by
  obtain ⟨hrun, hpc, hx, ha, hy, hsame⟩ := h
  have hop : fetchOpcode t = 0xE8 := (hsame t.pc).trans (hmem t.pc)
  obtain ⟨u, hstep, hx', -, -, hpc', ha', hy', hrun', hsame'⟩ := stepInx t (runningAt_singleton hrun hop)
  cases (step_eq_nextWith t).symm.trans hstep
  refine ⟨hrun'.trans hrun, ?_, ?_, ha'.trans ha, hy'.trans hy, fun addr => (hsame' addr).trans (hsame addr)⟩
  · rw [PcAdvanced, hpc', hpc, Nat.mod_add_mod, Nat.add_assoc]
  · rw [hx', hx, Nat.mod_add_mod, Nat.add_assoc]

/-- Settles O52: every step of such a run is one more INX. -/
theorem allInxMemoryRunsForever : Obligations.AllInxMemoryRunsForever := by
  intro s hmem
  have hinx (n : Nat) : InxRepeated n s (runStateWith opcodeTable s n) := by
    induction n with
    | zero => exact inxRepeated_zero s
    | succ n ih => exact runStateWith_succ opcodeTable s n ▸ inxRepeated_succ hmem ih
  refine ⟨runsForeverWith_iff.mpr fun n => (hinx n).1, fun n => ?_⟩
  obtain ⟨-, hafter⟩ := hinx n
  exact ⟨_, runForWith_eq_next_iff.mpr rfl, hafter⟩

end Sys2Proof.Machine
end

section
/-! Host operations: consecutive writes, `load`, and what the host may do between runs. -/

namespace Sys2Proof.Machine

/-! ## Consecutive writes -/

/-- After consecutive writes that do not lap the address space, the byte at distance `k` from the first address is the
`k`-th written, and every other byte reads as before (R65). -/
theorem readByte_writeBytes {addr b : Word} {bytes : List Byte} {s : State} (hlen : bytes.length ≤ 65536) :
    readByte b (writeBytes addr bytes s) = bytes.getD (b - addr).toNat (readByte b s) := by
  induction bytes generalizing addr s with
  | nil => rfl
  | cons v bytes ih =>
    rw [List.length_cons] at hlen
    rw [writeBytes, ih (by omega), readByte_writeByte]
    by_cases hb : b = addr
    · subst hb
      have hlast : (b - (b + 1)).toNat = 65535 := by bv_omega
      rw [if_pos rfl, hlast, List.getD_eq_default _ _ (by omega), BitVec.sub_self]
      rfl
    · have hdist : (b - addr).toNat = (b - (addr + 1)).toNat + 1 := by bv_omega
      rw [if_neg hb, hdist, List.getD_cons_succ]

theorem readByte_writeBytes_image {addr : Word} {bytes : List Byte} {s : State} {k : Nat} (hlen : bytes.length ≤ 65536)
    (hk : k < bytes.length) : readByte (addr + BitVec.ofNat 16 k) (writeBytes addr bytes s) = bytes[k] := by
  have hdist : (addr + BitVec.ofNat 16 k - addr).toNat = k := by
    rw [BitVec.add_comm, BitVec.add_sub_cancel, BitVec.toNat_ofNat]
    omega
  rw [readByte_writeBytes hlen, hdist, List.getD_eq_getElem _ _ hk]

theorem readByte_writeBytes_outside {addr b : Word} {bytes : List Byte} {s : State} (hlen : bytes.length ≤ 65536)
    (hb : bytes.length ≤ (b - addr).toNat) : readByte b (writeBytes addr bytes s) = readByte b s := by
  rw [readByte_writeBytes hlen, List.getD_eq_default _ _ hb]

/-! ## load -/

/-- The state that `load` of an image leaves: the image, then the vector (R191). -/
def afterLoad (program : List Byte) (s : State) : State :=
  writeWord Config.resetVector Config.loadBase (writeBytes Config.loadBase program s)

theorem load_of_fits {program : List Byte} (s : State) (hfits : program.length ≤ 0x8000) :
    load program s = .ok (afterLoad program s) :=
  if_pos hfits

theorem load_of_too_long {program : List Byte} (s : State) (hlong : 0x8000 < program.length) :
    load program s = .error (.loadError program.length) :=
  if_neg (Nat.not_le.mpr hlong)

theorem readWord_afterLoad_resetVector (program : List Byte) (s : State) :
    readWord Config.resetVector (afterLoad program s) = Config.loadBase :=
  readWord_writeWord _ _ _

/-- Off the vector, `load` leaves what the image's writes leave. -/
theorem readByte_afterLoad_of_ne {b : Word} (program : List Byte) (s : State) (hlo : b ≠ 0xFFFC) (hhi : b ≠ 0xFFFD) :
    readByte b (afterLoad program s) = readByte b (writeBytes Config.loadBase program s) :=
  readByte_writeWord_of_ne _ _ hlo hhi

/-- An image byte off the vector stands at `LOAD_BASE` plus its index. -/
theorem readByte_afterLoad_image {program : List Byte} {k : Nat} (s : State) (hfits : program.length ≤ 0x8000)
    (hk : k < program.length) (hvector : k < 0x7FFC ∨ 0x7FFE ≤ k) :
    readByte (BitVec.ofNat 16 (0x8000 + k)) (afterLoad program s) = program[k] := by
  have haddr : BitVec.ofNat 16 (0x8000 + k) = Config.loadBase + BitVec.ofNat 16 k := BitVec.ofNat_add 0x8000 k
  have hne (n : Nat) (hn : n = 0xFFFC ∨ n = 0xFFFD) : BitVec.ofNat 16 (0x8000 + k) ≠ BitVec.ofNat 16 n := by
    rw [Ne, ← BitVec.toNat_inj, BitVec.toNat_ofNat, BitVec.toNat_ofNat]
    omega
  rw [readByte_afterLoad_of_ne program s (hne _ (.inl rfl)) (hne _ (.inr rfl)), haddr]
  exact readByte_writeBytes_image (by omega) hk

/-- Outside the image and the vector, `load` writes nothing. -/
theorem readByte_afterLoad_outside {program : List Byte} {b : Word} (s : State) (hfits : program.length ≤ 0x8000)
    (hout : b.toNat < 0x8000 ∨ 0x8000 + program.length ≤ b.toNat) (hlo : b ≠ 0xFFFC) (hhi : b ≠ 0xFFFD) :
    readByte b (afterLoad program s) = readByte b s := by
  have hdist : program.length ≤ (b - Config.loadBase).toNat := by
    have hbase : Config.loadBase.toNat = 0x8000 := rfl
    rw [BitVec.toNat_sub, hbase]
    omega
  rw [readByte_afterLoad_of_ne program s hlo hhi, readByte_writeBytes_outside (by omega) hdist]

/-- `load` changes no register, not PC and not S. -/
theorem afterLoad_frame (program : List Byte) (s : State) :
    (afterLoad program s).a = s.a ∧ (afterLoad program s).x = s.x ∧ (afterLoad program s).y = s.y ∧
    (afterLoad program s).p = s.p ∧ (afterLoad program s).pc = s.pc ∧ (afterLoad program s).runStatus = s.runStatus :=
  writeBytes_frame Config.loadBase program s

/-- Settles O56: the image is written from 0x8000 up, and the vector over it. -/
theorem loadCopiesTheImageAndSetsTheVector : Obligations.LoadCopiesTheImageAndSetsTheVector :=
  fun program s hfits => ⟨afterLoad program s, load_of_fits s hfits, readByte_writeWord_low _ _ _,
    readByte_writeWord_high _ _ _, fun _ hk hvector => readByte_afterLoad_image s hfits hk hvector,
    fun _ hout hlo hhi => readByte_afterLoad_outside s hfits hout hlo hhi, afterLoad_frame program s⟩

/-- Settles O57: `load` compares the length first, and `load_and_run` begins with `load`. -/
theorem tooLongAnImageIsRejected : Obligations.TooLongAnImageIsRejected :=
  fun c _ s hlong => have hload := load_of_too_long s hlong
    ⟨hload, congrArg (Except.map fun t => startRun (resetOp c t)) hload⟩

/-- Settles O58: `reset` takes PC from the vector that `load` has set to the image's first address. -/
theorem loadAndRunStartsAtTheImage : Obligations.LoadAndRunStartsAtTheImage := by
  intro c op program s hlen
  have hfits : (op :: program).length ≤ 0x8000 := hlen
  obtain ⟨-, -, hy, -⟩ := afterLoad_frame (op :: program) s
  have hstart : startLoadAndRun c (op :: program) s = .ok (startRun (resetOp c (afterLoad (op :: program) s))) :=
    congrArg (Except.map fun t => startRun (resetOp c t)) (load_of_fits s hfits)
  have hpc := readWord_afterLoad_resetVector (op :: program) s
  have hop : readByte 0x8000 (afterLoad (op :: program) s) = op :=
    readByte_afterLoad_image (k := 0) s hfits (Nat.zero_lt_succ _) (.inl (by decide))
  refine ⟨_, hstart, rfl, hpc, ?_, rfl, rfl, rfl, ?_, fun addr hlow => ?_⟩
  · exact (congrArg (readByte · (afterLoad (op :: program) s)) hpc).trans hop
  · exact congrArg (fun y => if c = true then 0x00 else y) hy
  · exact readByte_afterLoad_outside s hfits (.inl hlow) (by bv_omega) (by bv_omega)

/-! ## reset, and every host operation -/

/-- Settles O55: Y is 0x00 in a constructed CPU, so either value of `RESET_CLEARS_Y` leaves it so. -/
theorem resetStateIsResetOfConstruct : Obligations.ResetStateIsResetOfConstruct := by
  intro c
  cases c <;> rfl

/-- What a host operation answers between runs. -/
def hostResult (resetClearsY : Bool) (s : State) : HostOp → Except HostReject State
  | .construct => .ok construct
  | .load program => load program s
  | .reset => .ok (resetOp resetClearsY s)
  | .loadAndRun program => startLoadAndRun resetClearsY program s
  | .run => .ok (startRun s)
  | .writeReg r v => .ok (writeReg r v s)
  | .writePc v => .ok (s.setPc v)
  | .writeByte addr v => .ok (writeByte addr v s)

theorem hostApply_of_running (c : Bool) (op : HostOp) {s : State} (h : s.runStatus = .running) :
    hostApply c op s = .error .runInProgress := by
  unfold hostApply
  rw [h]

theorem hostApply_of_not_running (c : Bool) (op : HostOp) {s : State} (h : s.runStatus ≠ .running) :
    hostApply c op s = hostResult c s op := by
  unfold hostApply
  cases hs : s.runStatus with
  | running => exact absurd hs h
  | idle | halted o => cases op <;> rfl

/-- An accepted `load_and_run` is an accepted `load`, then `reset` and the start of `run` (R195). -/
theorem startLoadAndRun_ok {c : Bool} {program : List Byte} {s t : State} (h : startLoadAndRun c program s = .ok t) :
    ∃ u, load program s = .ok u ∧ t = startRun (resetOp c u) := by
  rw [startLoadAndRun] at h
  cases hload : load program s with
  | error e => rw [hload] at h; cases h
  | ok u => rw [hload] at h; cases h; exact ⟨u, rfl, rfl⟩

/-- `load` keeps memory canonical: it is a list of byte writes. -/
theorem load_memoryCanonical {program : List Byte} {s t : State} (hs : s.memoryCanonical) (h : load program s = .ok t) :
    t.memoryCanonical := by
  obtain ⟨-, rfl⟩ := load_ok h
  exact writeWord_wf _ _ _ (writeBytes_wf _ _ _ hs)

/-- Settles O47: each operation's memory is empty, the same, or the result of byte writes. -/
theorem hostOperationsKeepMemoryCanonical : Obligations.HostOperationsKeepMemoryCanonical := by
  intro c op s t hs h
  have hrun : s.runStatus ≠ .running := fun hrun => nomatch (hostApply_of_running c op hrun).symm.trans h
  replace h : hostResult c s op = .ok t := (hostApply_of_not_running c op hrun).symm.trans h
  cases op with
  | construct => cases h; rfl
  | load program => exact load_memoryCanonical hs h
  | loadAndRun program =>
    obtain ⟨u, hload, rfl⟩ := startLoadAndRun_ok h
    have hu : u.memoryCanonical := load_memoryCanonical hs hload
    exact hu
  | writeReg r v =>
    cases h
    rw [State.memoryCanonical, writeReg_mem]
    exact hs
  | writeByte addr v => cases h; exact writeByte_wf addr v s hs
  | reset | run | writePc v => cases h; exact hs

/-- An operation between runs is turned away for its image's length or not at all. -/
theorem hostResult_ne_runInProgress (c : Bool) (s : State) (op : HostOp) : hostResult c s op ≠ .error .runInProgress := by
  cases op with
  | construct | reset | run | writeReg | writePc | writeByte => exact nofun
  | load program | loadAndRun program =>
    obtain hlong | hfits := Nat.lt_or_ge 0x8000 program.length
    · simp [hostResult, startLoadAndRun, load_of_too_long s hlong, Except.map]
    · simp [hostResult, startLoadAndRun, load_of_fits s hfits, Except.map]

/-- Settles O59: the host consults S first, and between runs no operation answers that rejection. -/
theorem hostActsOnlyBetweenRuns : Obligations.HostActsOnlyBetweenRuns := by
  refine fun c op s => ⟨fun h => ?_, hostApply_of_running c op⟩
  by_contra hrun
  exact hostResult_ne_runInProgress c s op ((hostApply_of_not_running c op hrun).symm.trans h)

end Sys2Proof.Machine
end
